-- ==== Sys2Proof/Word.lean ====
section
/-! DEFINITION. The block's units: the byte, the 16-bit field and the byte string (00_scope.md rules R8, R11). -/

namespace Sys2Proof

/-- An 8-bit value, `u8` (R8, R11). -/
abbrev Byte := BitVec 8

/-- An unsigned 16-bit field, `u16` (R8, R11). Bit 0 is the least significant (R10). -/
abbrev U16 := BitVec 16

/-- A finite sequence of bytes, offsets counted from 0 (R11). -/
abbrev Bytes := List Byte

end Sys2Proof
end

