-- ==== Sys2Proof/Config.lean ====
section
/-! DEFINITION. The configuration record (10_state.md rule R33), its value for this hardware, and the values the
spec leaves to the host and that no rule constrains (R39, R180). -/

namespace Sys2Proof

/-- A peer address: the spec's opaque type parameter `Addr` with decidable equality (00_scope.md R9, 92 D10).
The block stores an address and writes to it, and never looks inside (assumption 3). -/
structure Addr where
  tag : Nat
  deriving DecidableEq, Repr

/-- The opaque host address the socket is bound to (R9, 92 D9; assumption 3). -/
structure HostAddr where
  tag : Nat
  deriving DecidableEq, Repr

/-- `P_POLICY` (R33): `StubNameError` is the only admitted value. `ForwardToUpstream` is named by the source and
refused (R3, R151). -/
inductive Policy where
  | stubNameError
  | forwardToUpstream
  deriving DecidableEq, Repr

/-- The configuration record of R33. It is a parameter of the machine: no operation writes it (R32). -/
structure Config where
  /-- `P_PORT` -/
  port : U16
  /-- `P_BIND_HOST` -/
  bindHost : HostAddr
  /-- `P_RX_MAX`, in bytes -/
  rxMax : Nat
  /-- `P_CLASS_FILTER` -/
  classFilter : Bool
  /-- `P_INFLIGHT_LIMIT` -/
  inflightLimit : Option Nat
  /-- `P_POLICY` -/
  policy : Policy
  deriving DecidableEq, Repr

namespace Config

/-- The values for this hardware (R9, R33). `P_RX_MAX` and `P_BIND_HOST` are OPEN there: the values that stand
here for the state after reset are the model's (assumptions 1 and 2, DESIGN CHOICE). -/
def thisHardware : Config where
  port := 3030#16
  bindHost := ⟨0⟩
  rxMax := 65535
  classFilter := false
  inflightLimit := none
  policy := .stubNameError

/-- FREE VALUE: the text of the `n`-th diagnostic draw, any byte string (R39, R180, 92 D11; assumption 8). -/
opaque freeText : Nat → Bytes

/-- FREE VALUE: the question count of a filtered reply that keeps `kept` questions, where `kept` is above 65535 and no
u16 is the number kept (41_policy.md R146, R21; assumption 12). -/
opaque freeCount (kept : Nat) : U16

/-- FREE VALUE: whether the `n`-th diagnostic draw, for an event the block may or may not log, is logged
(R180 "each optionally"; assumption 8). -/
opaque freeDump : Nat → Bool

end Config

end Sys2Proof
end

