-- ==== Sys2Proof/Syntax.lean ====
section
/-! DEFINITION. The value types of the codec (10_state.md R21–R24), the result of an operation (00_scope.md R14,
60_exceptions.md R200) and the nine operations with their operands (30_encoding.md R85). -/

namespace Sys2Proof

/-- A Header: six unsigned 16-bit fields in wire order (R21). -/
structure Header where
  id : U16
  flags : U16
  qdcount : U16
  ancount : U16
  nscount : U16
  arcount : U16
  deriving DecidableEq, Repr

/-- A Label: a byte string of length 0 to 255, its bytes raw (R22). A longer one is no value of the type
(R22, 92 D15). -/
@[ext] structure Label where
  bytes : Bytes
  fits : bytes.length ≤ 255
  deriving DecidableEq, Repr

/-- A Question: the labels of its name in order, without the terminator; no labels is the root name (R23). -/
structure Question where
  labels : List Label
  qtype : U16
  qclass : U16
  deriving DecidableEq, Repr

/-- A Message (R24). `header.qdcount` need not be the number of questions: only DECODE guarantees that. -/
structure Message where
  header : Header
  questions : List Question
  deriving DecidableEq, Repr

/-- The error taxonomy of R200; IOError stands in three forms there. -/
inductive BlockError where
  | malformedMessage
  | ioBind
  | ioReceive
  | ioWrite
  | configRead
  deriving DecidableEq, Repr

/-- What a codec operation returns, `Ok(v)` or `Err(E)` (R14). -/
inductive Result (ε α : Type) where
  | ok (v : α)
  | err (e : ε)
  deriving DecidableEq, Repr

/-- The host's answer to BIND (R160). -/
inductive BindAnswer where
  | success
  | failure (code : Nat)
  deriving DecidableEq, Repr

/-- The host's outcome of a write (R175): `Ok`, `Short(n)` or `Error`. -/
inductive WriteOutcome where
  | ok
  | short (written : Nat)
  | error
  deriving DecidableEq, Repr

/-- The nine operations of R82 with the operands their rules give them. Ids, counts and codes are natural numbers, as
the rules say; a record of R85 carries those that fit it, which `Instr.wf` checks (assumptions 5 and 17). -/
inductive Instr where
  /-- DECODE (R100): parse `input`. -/
  | decode (input : Bytes)
  /-- ENCODE (R120): serialize `m`. -/
  | encode (m : Message)
  /-- BUILD_REPLY (R140): the reply message for the query `q`. -/
  | buildReply (q : Message)
  /-- BIND (R160), with the host's answer. -/
  | bind (answer : BindAnswer)
  /-- RECV (R163): `peer` names the sender by its place in the peer list (R85). -/
  | recv (peer : Nat) (payload : Bytes)
  /-- RECV_FAIL (R167). -/
  | recvFail
  /-- HANDLE (R170) of a handler id. -/
  | handle (handler : Nat)
  /-- SEND (R175) of a handler id, with the host's outcome. -/
  | send (handler : Nat) (outcome : WriteOutcome)
  /-- STOP (R182). -/
  | stop
  deriving DecidableEq, Repr

end Sys2Proof
end

