-- ==== Sys2Proof/WellFormed.lean ====
section
/-! DEFINITION. Which instructions a record of 30_encoding.md R85 and R86 can spell: every count and
every number fits its u8 or u16, and a failed BIND carries a non-zero code (R87, R160). A label's length needs no check: its type bounds it (R22). -/

namespace Sys2Proof

/-- The number of labels fits `nl:u16` (R86). -/
def Question.wf (q : Question) : Bool :=
  decide (q.labels.length < 65536)

/-- The number of questions fits `nq:u16` and each question is well formed (R86). -/
def Message.wf (m : Message) : Bool :=
  decide (m.questions.length < 65536) && m.questions.all Question.wf

/-- `Failure(code)` has `code ≠ 0` (R160, R87), and the code fits `code:u8` (R85). -/
def BindAnswer.wf : BindAnswer → Bool
  | .success => true
  | .failure code => decide (code ≠ 0 ∧ code < 256)

/-- The length of a short write fits `written:u16` (R85). -/
def WriteOutcome.wf : WriteOutcome → Bool
  | .ok => true
  | .short n => decide (n < 65536)
  | .error => true

/-- The instruction can be written as a record of R85. -/
def Instr.wf : Instr → Bool
  | .decode input => decide (input.length < 65536)
  | .encode m => m.wf
  | .buildReply q => q.wf
  | .bind answer => answer.wf
  | .recv peer payload => decide (peer < 256 ∧ payload.length < 65536)
  | .recvFail => true
  | .handle h => decide (h < 65536)
  | .send h o => decide (h < 65536) && o.wf
  | .stop => true

end Sys2Proof
end

