-- ==== Sys2Proof/Decode.lean ====
section
/-! DEFINITION. Big-endian assembly (00_scope.md R12), the decoder of the operation records of 30_encoding.md
R83–R87 (total on any bytes, refusing by name), the encoder of the same records, and the table's numbering of a
record's bits. The wire format of DNS messages is not here: it is Machine/Codec.lean. -/

namespace Sys2Proof

/-- `be16` of two bytes: the byte at the lower offset is bits 15:8 (R12, R52). -/
def be16 (hi lo : Byte) : U16 :=
  BitVec.ofNat 16 (hi.toNat * 256 + lo.toNat)

/-- `bytes16(v) = [v[15:8], v[7:0]]` (R12). -/
def bytes16 (v : U16) : Bytes :=
  [v.extractLsb' 8 8, v.extractLsb' 0 8]

/-- The label that holds the first 255 bytes of `b`, so all of `b` where `b` has at most 255 (R22). -/
def Label.ofBytes (b : Bytes) : Label :=
  ⟨b.take 255, by simp⟩

namespace Result

/-- Go on with the value of `Ok`; an error ends the operation in progress (R13 `raise`). -/
def bind {ε α β : Type} (r : Result ε α) (f : α → Result ε β) : Result ε β :=
  match r with
  | .ok v => f v
  | .err e => .err e

/-- Apply `f` to the value of `Ok`. -/
def map {ε α β : Type} (f : α → β) (r : Result ε α) : Result ε β :=
  match r with
  | .ok v => .ok (f v)
  | .err e => .err e

end Result

/-- Why a stream spells no operation (R87). -/
inductive RecordError where
  /-- An operation byte that is not in R85. -/
  | unassignedCode (code : Byte)
  /-- The operands run past the end of the stream. -/
  | truncated
  /-- A BIND result byte that is neither 0x00 nor 0x01 (R85; assumption 10). -/
  | badBindResult (result : Byte)
  /-- A BIND failure with `code = 0`. -/
  | zeroExitCode
  /-- A SEND outcome byte above 0x02. -/
  | badOutcome (outcome : Byte)
  deriving DecidableEq, Repr

/-- A read from the front of the stream: the value and the rest of the stream. -/
abbrev Taken (α : Type) := Result RecordError (α × Bytes)

/-- One byte of the stream. -/
def takeU8 : Bytes → Taken Byte
  | [] => .err .truncated
  | b :: rest => .ok (b, rest)

/-- One big-endian u16 operand (R85). -/
def takeU16 : Bytes → Taken U16
  | hi :: lo :: rest => .ok (be16 hi lo, rest)
  | _ => .err .truncated

/-- `n` bytes of the stream. -/
def takeN : Nat → Bytes → Taken Bytes
  | 0, s => .ok ([], s)
  | _ + 1, [] => .err .truncated
  | n + 1, b :: rest => (takeN n rest).map fun (bs, s) => (b :: bs, s)

/-- `n` items of the stream, one after another, each read by `item`. -/
def takeMany {α : Type} (item : Bytes → Taken α) : Nat → Bytes → Taken (List α)
  | 0, s => .ok ([], s)
  | n + 1, s =>
    (item s).bind fun (x, s) => (takeMany item n s).map fun (xs, s) => (x :: xs, s)

/-- A label of a message operand: `len:u8`, then `len` bytes (R86). -/
def takeLabel (s : Bytes) : Taken Label :=
  (takeU8 s).bind fun (n, s) => (takeN n.toNat s).map fun (b, s) => (Label.ofBytes b, s)

/-- A question of a message operand: `nl:u16`, the labels, `qtype:u16 qclass:u16` (R86). -/
def takeQuestion (s : Bytes) : Taken Question :=
  (takeU16 s).bind fun (nl, s) =>
  (takeMany takeLabel nl.toNat s).bind fun (labels, s) =>
  (takeU16 s).bind fun (qtype, s) =>
  (takeU16 s).map fun (qclass, s) => ({ labels, qtype, qclass }, s)

/-- The six header fields of a message operand (R86). -/
def takeHeader (s : Bytes) : Taken Header :=
  (takeU16 s).bind fun (id, s) =>
  (takeU16 s).bind fun (flags, s) =>
  (takeU16 s).bind fun (qdcount, s) =>
  (takeU16 s).bind fun (ancount, s) =>
  (takeU16 s).bind fun (nscount, s) =>
  (takeU16 s).map fun (arcount, s) => ({ id, flags, qdcount, ancount, nscount, arcount }, s)

/-- A message operand: the header fields, `nq:u16`, the questions (R86). -/
def takeMessage (s : Bytes) : Taken Message :=
  (takeHeader s).bind fun (header, s) =>
  (takeU16 s).bind fun (nq, s) =>
  (takeMany takeQuestion nq.toNat s).map fun (questions, s) => ({ header, questions }, s)

/-- A length-prefixed byte-string operand: `len:u16`, then `len` bytes (R85, DECODE and RECV). -/
def takeBytes (s : Bytes) : Taken Bytes :=
  (takeU16 s).bind fun (n, s) => takeN n.toNat s

/-- BIND's operand: `result:u8`, and on failure a non-zero `code:u8` (R85, R87). -/
def takeBindAnswer (s : Bytes) : Taken BindAnswer :=
  (takeU8 s).bind fun (r, s) =>
  if r = 0x00#8 then .ok (.success, s)
  else if r = 0x01#8 then
    (takeU8 s).bind fun (code, s) =>
    if code = 0#8 then .err .zeroExitCode else .ok (.failure code.toNat, s)
  else .err (.badBindResult r)

/-- SEND's outcome operand: `outcome:u8`, and if Short, `written:u16` (R85, R87). -/
def takeOutcome (s : Bytes) : Taken WriteOutcome :=
  (takeU8 s).bind fun (o, s) =>
  if o = 0x00#8 then .ok (.ok, s)
  else if o = 0x01#8 then (takeU16 s).map fun (n, s) => (.short n.toNat, s)
  else if o = 0x02#8 then .ok (.error, s)
  else .err (.badOutcome o)

/-- The operands of the record whose operation byte is `code`: the operation byte alone selects the operation
(R83, R85), and a code that is not in R85 is refused (R87). -/
def takeOperands (code : Byte) (s : Bytes) : Taken Instr :=
  if code = 0x01#8 then (takeBytes s).map fun (b, s) => (.decode b, s)
  else if code = 0x02#8 then (takeMessage s).map fun (m, s) => (.encode m, s)
  else if code = 0x03#8 then (takeMessage s).map fun (m, s) => (.buildReply m, s)
  else if code = 0x10#8 then (takeBindAnswer s).map fun (a, s) => (.bind a, s)
  else if code = 0x11#8 then
    (takeU8 s).bind fun (peer, s) => (takeBytes s).map fun (b, s) => (.recv peer.toNat b, s)
  else if code = 0x12#8 then .ok (.recvFail, s)
  else if code = 0x20#8 then (takeU16 s).map fun (h, s) => (.handle h.toNat, s)
  else if code = 0x21#8 then
    (takeU16 s).bind fun (h, s) => (takeOutcome s).map fun (o, s) => (.send h.toNat o, s)
  else if code = 0x30#8 then .ok (.stop, s)
  else .err (.unassignedCode code)

/-- The first record of a stream and the rest of the stream. -/
def decodeRecord (s : Bytes) : Taken Instr :=
  (takeU8 s).bind fun (code, s) => takeOperands code s

/-- The operation codes of R85. -/
def Instr.code : Instr → Byte
  | .decode _ => 0x01#8
  | .encode _ => 0x02#8
  | .buildReply _ => 0x03#8
  | .bind _ => 0x10#8
  | .recv _ _ => 0x11#8
  | .recvFail => 0x12#8
  | .handle _ => 0x20#8
  | .send _ _ => 0x21#8
  | .stop => 0x30#8

/-- `len:u8`, then the label's bytes (R86). On the wire a label has this same form (R73). -/
def labelRecord (l : Label) : Bytes :=
  BitVec.ofNat 8 l.bytes.length :: l.bytes

/-- A number in u16 form: a count, a handler id, the length of a short write. -/
def count16 (n : Nat) : Bytes :=
  bytes16 (BitVec.ofNat 16 n)

/-- A question as R86 lays it out. -/
def questionRecord (q : Question) : Bytes :=
  count16 q.labels.length ++ q.labels.flatMap labelRecord ++ bytes16 q.qtype ++ bytes16 q.qclass

/-- The six header fields in wire order, each big-endian (R71, R86). -/
def headerBytes (h : Header) : Bytes :=
  bytes16 h.id ++ bytes16 h.flags ++ bytes16 h.qdcount ++
    bytes16 h.ancount ++ bytes16 h.nscount ++ bytes16 h.arcount

/-- A message operand as R86 lays it out. -/
def messageRecord (m : Message) : Bytes :=
  headerBytes m.header ++ count16 m.questions.length ++ m.questions.flatMap questionRecord

/-- `len:u16`, then the bytes (R85). -/
def bytesRecord (b : Bytes) : Bytes :=
  count16 b.length ++ b

/-- BIND's operand (R85). -/
def bindRecord : BindAnswer → Bytes
  | .success => [0x00#8]
  | .failure code => [0x01#8, BitVec.ofNat 8 code]

/-- SEND's outcome operand (R85). -/
def outcomeRecord : WriteOutcome → Bytes
  | .ok => [0x00#8]
  | .short n => 0x01#8 :: count16 n
  | .error => [0x02#8]

/-- The operands of a record (R85). -/
def Instr.operands : Instr → Bytes
  | .decode input => bytesRecord input
  | .encode m => messageRecord m
  | .buildReply q => messageRecord q
  | .bind answer => bindRecord answer
  | .recv peer payload => BitVec.ofNat 8 peer :: bytesRecord payload
  | .recvFail => []
  | .handle h => count16 h
  | .send h o => count16 h ++ outcomeRecord o
  | .stop => []

/-- The record of an instruction: the operation byte, then the operands (R83, R85). -/
def encodeRecord (i : Instr) : Bytes :=
  i.code :: i.operands

/-- How many bytes of zeros stand after the bits a table word gives. A record that is all zeros after its operation
byte has at most 14 more bytes (the message operand with `nq = 0`, R86). Where the word reaches into the operands it
may set a count: then enough for the longest record, 65535 questions of no labels after a label list of 65535. -/
def tablePad (nbits : Nat) : Nat :=
  if nbits ≤ 8 then 14 else 458997

/-- The bytes of a table word: bit 0 of `w` is the least significant bit of the first byte, the second byte is bits
15..8, and every bit above `nbits` is 0. -/
def tableBytes (nbits w : Nat) : Bytes :=
  (List.range ((nbits + 7) / 8)).map (fun k => BitVec.ofNat 8 (w % 2 ^ nbits / 2 ^ (8 * k))) ++
    List.replicate (tablePad nbits) 0#8

/-- The instruction the decoder reads from a table word. -/
def decodeTableWord (nbits w : Nat) : Option Instr :=
  match decodeRecord (tableBytes nbits w) with
  | .ok (i, _) => some i
  | .err _ => none

end Sys2Proof
end

