-- ==== Sys2Proof/Machine/State.lean ====
section
/-! DEFINITION. The state of the block as plain data (10_state.md R20, R31–R43), what a step can stop with, and the
state after reset. -/

namespace Sys2Proof.Machine

/-- `phase` (R34). -/
inductive Phase where
  | boot
  | running
  | terminated
  deriving DecidableEq, Repr

/-- `sock` (R35). -/
inductive Sock where
  | unbound
  | bound (host : HostAddr) (port : U16)
  deriving DecidableEq, Repr

/-- A handler's stage (R36). -/
inductive Stage where
  | ready
  | pending (reply : Bytes)
  deriving DecidableEq, Repr

/-- A live handler (R36): the captured sender address, its own copy of the datagram, its stage. -/
structure Handler where
  peer : Addr
  payload : Bytes
  stage : Stage
  deriving DecidableEq, Repr

/-- `handlers`, a finite map from ids to handlers (R20, R36), as a list of entries by rising id. -/
abbrev HandlerTable := List (Nat × Handler)

/-- The observable events of `trace` (R38). -/
inductive Event where
  | bound
  | fatal (code : Nat)
  | rx (id : Nat) (peer : Addr) (payload : Bytes)
  | reject (peer : Addr) (payload : Bytes)
  | rxFail
  | drop (id : Nat)
  | tx (id : Nat) (peer : Addr) (bytes : Bytes) (outcome : WriteOutcome)
  | stopped
  deriving DecidableEq, Repr

/-- The kinds of diagnostic event (R39). -/
inductive LogKind where
  | rxDump
  | parsed
  | txDump
  | decodeFail
  | writeFail
  | recvFail
  | bindFail
  deriving DecidableEq, Repr

/-- An event of `diag`: its text is any byte string (R39). -/
structure LogEvent where
  kind : LogKind
  text : Bytes
  deriving DecidableEq, Repr

/-- What the codec port's `IN` and `OUT` hold: a byte string or a Message (R31). -/
inductive PortValue where
  | bytes (b : Bytes)
  | message (m : Message)
  deriving DecidableEq, Repr

/-- The codec command port of R31; `none` is "no command", its value after reset (R43). -/
structure CodecPort where
  /-- `CMD`, 8 bits -/
  cmd : Option (BitVec 8)
  /-- `IN` -/
  inp : Option PortValue
  /-- `OUT` -/
  out : Option PortValue
  /-- `STATUS`, 1 bit: 0 OK, 1 MALFORMED -/
  status : Option (BitVec 1)
  deriving DecidableEq, Repr

/-- What became of the last turn of the machine (R14): the operation moved the state, it had no step, or there was no
operation and the machine waits. The model's own, so that a claim can tell a step from none (assumption 6). -/
inductive Verdict where
  | moved
  | noStep
  | waits
  deriving DecidableEq, Repr

/-- An error as the step that meets it handles it (60_exceptions.md R201–R206), with what its handling needs. -/
inductive Raised where
  /-- MalformedMessage inside HANDLE of this handler (R202). -/
  | malformedMessage (handler : Nat)
  /-- IOError on bind, with the host's exit code (R203). -/
  | ioBind (code : Nat)
  /-- IOError on receive (R204). -/
  | ioReceive
  /-- IOError on write, or a short write (R205). -/
  | ioWrite
  /-- ConfigReadError of the Nameserver Source, outside the block (R206). -/
  | configRead
  deriving DecidableEq, Repr

/-- The state of the block: the record of R20, the codec port of R31 and the staging buffer of R41; then what is to come,
as operations and as the records and peer list that R83–R87 decode; and two fields of the model's own. -/
structure State where
  /-- `cfg` (R33): a parameter, never written (R32). -/
  cfg : Config
  phase : Phase
  sock : Sock
  handlers : HandlerTable
  /-- The id the next spawned handler takes (R37). -/
  nextId : Nat
  /-- The observable events, oldest first (R38). -/
  trace : List Event
  /-- The diagnostic output, oldest first (R39). -/
  diag : List LogEvent
  /-- The exit status, `none` while the process runs (R40). -/
  exit : Option Nat
  /-- The codec command port (R31). -/
  port : CodecPort
  /-- The receive staging buffer (R41, R50): the bytes the last receive delivered (assumption 4). -/
  staging : Bytes
  /-- The operations the agents have chosen to take next, in any order and with any operands (R161, R186; assumption 5);
  they come before those of `stream`. -/
  agenda : List Instr
  /-- The operations not yet run that are given as records (R83, R85; assumption 5). -/
  stream : Bytes
  /-- The peer list given with the operations (R85). -/
  peers : List Addr
  /-- The model's own: how many diagnostic draws were made; the free values of R180 are read at it. -/
  draws : Nat
  /-- The model's own: what became of the last turn. -/
  verdict : Verdict
  deriving DecidableEq, Repr

/-- The block has no trap and no error that stops a step: each error is handled by the step that meets it (R201), and
an operation without a step is no fault (R14, R164). So there is no fault. -/
inductive Fault where
  deriving DecidableEq, Repr

/-- A refusal is the model's verdict on an input to which the spec gives no meaning (R14, R87, 92 D27). Every one is
safe: the machine stops where the block does nothing. -/
inductive Refusal where
  /-- An arm of `exec` without a meaning; no arm raises it. -/
  | notModelled (mnemonic : String)
  /-- The stream's next record spells no operation (R87). Raised by `step`. -/
  | badRecord (e : RecordError)
  /-- RECV names a peer index outside the peer list (R87). Raised by RECV. -/
  | peerOutsideList (peer : Nat)
  /-- The configuration is refused as a whole (R33, R151, R232). Raised by `step` and by every operation. -/
  | illegalConfig
  deriving DecidableEq, Repr

/-- The codec port with no command (R31, R43). -/
def CodecPort.idle : CodecPort where
  cmd := none
  inp := none
  out := none
  status := none

/-- The state after reset, which is process start (R43, R230). `staging`, `agenda`, `stream`, `peers`, `draws` and
`verdict` are not in R43: their values are the model's (assumptions 4, 5, 6 and 8, DESIGN CHOICE). -/
def State.reset : State where
  cfg := Config.thisHardware
  phase := .boot
  sock := .unbound
  handlers := []
  nextId := 0
  trace := []
  diag := []
  exit := none
  port := CodecPort.idle
  staging := []
  agenda := []
  stream := []
  peers := []
  draws := 0
  verdict := .waits

end Sys2Proof.Machine
end

