-- ==== Sys2Proof/Machine/Ops.lean ====
section
/-! DEFINITION. The named operations over the state: the handler table as a finite map (R36), the single-field
updates, the diagnostic log (R180), what a step answers (R14), the error branch that stands in for trap entry
(R201–R211), and the codec port (R31). -/

namespace Sys2Proof

/-- A legal configuration: `P_POLICY` is not `ForwardToUpstream` and `P_INFLIGHT_LIMIT` is not `Some(0)` (R33). -/
def Config.legal (c : Config) : Bool :=
  c.policy == .stubNameError && c.inflightLimit != some 0

/-- The code of an error (R200). -/
def BlockError.code : BlockError → Nat
  | .malformedMessage => 1
  | .ioBind => 2
  | .ioReceive => 3
  | .ioWrite => 4
  | .configRead => 5

namespace Machine

/-- The error of the taxonomy R200 that a step handles. -/
def Raised.error : Raised → BlockError
  | .malformedMessage _ => .malformedMessage
  | .ioBind _ => .ioBind
  | .ioReceive => .ioReceive
  | .ioWrite => .ioWrite
  | .configRead => .configRead

/-- The error an observable event records, where it records one (R200 "value recorded"): a write whose outcome is not
`Ok` is an IOError on write, a short write included (R205). -/
def Event.error? : Event → Option BlockError
  | .fatal _ => some .ioBind
  | .rxFail => some .ioReceive
  | .drop _ => some .malformedMessage
  | .tx _ _ _ o => if o = .ok then none else some .ioWrite
  | .bound => none
  | .rx _ _ _ => none
  | .reject _ _ => none
  | .stopped => none

/-- The answer of one operation. -/
abbrev Answer := Host.Outcome State Fault Refusal

/-- The handler with id `h`. -/
def HandlerTable.get? (t : HandlerTable) (h : Nat) : Option Handler :=
  match t with
  | [] => none
  | (k, r) :: rest => if k = h then some r else HandlerTable.get? rest h

/-- `handlers[h] <- r`, keeping the ids rising. -/
def HandlerTable.put (t : HandlerTable) (h : Nat) (r : Handler) : HandlerTable :=
  match t with
  | [] => [(h, r)]
  | (k, x) :: rest =>
    if k < h then (k, x) :: HandlerTable.put rest h r
    else if k = h then (h, r) :: rest
    else (h, r) :: (k, x) :: rest

/-- Remove `h` from the table. -/
def HandlerTable.remove (t : HandlerTable) (h : Nat) : HandlerTable :=
  match t with
  | [] => []
  | (k, x) :: rest =>
    if k = h then HandlerTable.remove rest h else (k, x) :: HandlerTable.remove rest h

/-- The canonical form of the table: ids strictly rising, so that equal maps are equal lists. -/
abbrev HandlerTable.wf (t : HandlerTable) : Prop :=
  t.Pairwise fun a b => a.1 < b.1

namespace State

def withPhase (s : State) (p : Phase) : State := { s with phase := p }
def withSock (s : State) (k : Sock) : State := { s with sock := k }
def withHandlers (s : State) (t : HandlerTable) : State := { s with handlers := t }
def withNextId (s : State) (n : Nat) : State := { s with nextId := n }
def withExit (s : State) (x : Option Nat) : State := { s with exit := x }
def withPort (s : State) (p : CodecPort) : State := { s with port := p }
def withStaging (s : State) (d : Bytes) : State := { s with staging := d }
def withAgenda (s : State) (is : List Instr) : State := { s with agenda := is }
def withStream (s : State) (b : Bytes) : State := { s with stream := b }
def withPeers (s : State) (p : List Addr) : State := { s with peers := p }

/-- `trace <- trace ++ [e]` (R38). -/
def emit (s : State) (e : Event) : State := { s with trace := s.trace ++ [e] }

/-- An event that is always logged, with any text (R180). -/
def log (s : State) (k : LogKind) : State :=
  { s with diag := s.diag ++ [{ kind := k, text := Config.freeText s.draws }], draws := s.draws + 1 }

/-- An event that may or may not be logged (R180 "each optionally"): the choice is free. -/
def logMaybe (s : State) (k : LogKind) : State :=
  { s with
    diag := s.diag ++
      (if Config.freeDump s.draws then [{ kind := k, text := Config.freeText s.draws }] else [])
    draws := s.draws + 1 }

/-- Record what became of this turn. -/
def mark (s : State) (v : Verdict) : State := { s with verdict := v }

/-- The error branch of the step that meets an error: what stands in for trap entry (R210). Nothing is saved and there
is no return (R211).
- MalformedMessage in HANDLE: the handler goes, `Drop(h)`, `DecodeFail` (R202, R170).
- IOError on bind: terminated, with the exit code, `Fatal(code)`, `BindFail` (R203, R160).
- IOError on receive: `RxFail`, `RecvFail`, nothing else (R204, R167).
- IOError on write: `WriteFail` only; SEND has removed the handler, whatever the outcome (R205, R175).
- ConfigReadError: no step of the block raises it and it changes no state of the block (R206). -/
def takeError (s : State) : Raised → State
  | .malformedMessage h => ((s.withHandlers (s.handlers.remove h)).emit (.drop h)).log .decodeFail
  | .ioBind code => (((s.withPhase .terminated).withExit (some code)).emit (.fatal code)).log .bindFail
  | .ioReceive => (s.emit .rxFail).log .recvFail
  | .ioWrite => s.log .writeFail
  | .configRead => s

end State

/-- The operation to run next, and the state without it: the first of the agenda, which any agent's choice may be
(R186), and when that is empty the first record of the stream (R84); `none` where there is neither. -/
def State.fetch (s : State) : Result RecordError (Option (Instr × State)) :=
  match s.agenda with
  | i :: rest => .ok (some (i, s.withAgenda rest))
  | [] =>
    if s.stream.isEmpty then .ok none
    else (decodeRecord s.stream).map fun (i, rest) => some (i, s.withStream rest)

/-- The step moves the state to `t`. -/
def moved (t : State) : Answer :=
  .next (t.mark .moved)

/-- The operation has no step (R14): the state stays, and the next operation to come may be tried
(assumption 6). -/
def noStep (s : State) : Answer :=
  .next (s.mark .noStep)

/-- There is no operation: the receive loop waits for the host (R164, R218). -/
def waits (s : State) : Answer :=
  .next (s.mark .waits)

/-- Nothing runs under an illegal configuration (R33, R151, R232). -/
def ifLegal (s : State) (answer : Answer) : Answer :=
  if s.cfg.legal then answer else .refused .illegalConfig

/-- The port after a command: all four items written anew, so that nothing persists from the command before (R31).
After `Err(MalformedMessage)` there is no output, and `STATUS` is 1 (R112, R202). -/
def CodecPort.done (cmd : Byte) (inp : PortValue) (r : Result BlockError PortValue) : CodecPort :=
  match r with
  | .ok v => { cmd := some cmd, inp := some inp, out := some v, status := some 0#1 }
  | .err _ => { cmd := some cmd, inp := some inp, out := none, status := some 1#1 }

/-- A codec command (R84): it gives its result on the port in its one step and leaves everything else as it was. It
runs in Boot and Running (95_test_vectors.md P4) and has no step in Terminated (R162; assumption 7). -/
def command (cmd : Byte) (inp : PortValue) (r : Result BlockError PortValue) (s : State) : Answer :=
  ifLegal s (if s.phase = .terminated then noStep s else moved (s.withPort (CodecPort.done cmd inp r)))

end Machine

end Sys2Proof
end

