-- ==== Sys2Proof/Machine/Operands.lean ====
section
/-! DEFINITION. The operand forms of the dispatcher steps: a peer index, a payload, a handler id in the stage its step
needs, a bind answer and a write outcome the host can give (30_encoding.md R85, 42_dispatcher.md R163, R170, R175). -/

namespace Sys2Proof.Machine

/-- The peer address an index names (R85); `none` outside the peer list (R87). -/
def State.peerAt? (s : State) (peer : Nat) : Option Addr :=
  s.peers[peer]?

/-- A peer list with an address for every index a record can spell: the addresses of `peers` first. -/
def fillPeers (peers : List Addr) : List Addr :=
  peers ++ ((List.range 256).drop peers.length).map Addr.mk

/-- A delivery the host can make: `|d| ≤ P_RX_MAX` (R63, R163). -/
def State.canDeliver (s : State) (d : Bytes) : Bool :=
  decide (d.length ≤ s.cfg.rxMax)

/-- The in-flight limit is reached: `P_INFLIGHT_LIMIT = Some(k)` and `|handlers| ≥ k` (R166). -/
def State.limitReached (s : State) : Bool :=
  match s.cfg.inflightLimit with
  | none => false
  | some k => decide (k ≤ s.handlers.length)

/-- HANDLE's precondition: Running, `h` in `handlers`, its stage `Ready` (R170). The handler it names. -/
def State.readyHandler? (s : State) (h : Nat) : Option Handler :=
  if s.phase = .running then
    match s.handlers.get? h with
    | some r => if r.stage = .ready then some r else none
    | none => none
  else none

/-- SEND's precondition: Running, `h` in `handlers`, its stage `Pending(bytes)` (R175). The handler's captured peer and
the bytes. -/
def State.pendingReply? (s : State) (h : Nat) : Option (Addr × Bytes) :=
  if s.phase = .running then
    match s.handlers.get? h with
    | some { peer, payload := _, stage := .pending bytes } => some (peer, bytes)
    | some { peer := _, payload := _, stage := .ready } => none
    | none => none
  else none

/-- An answer the host can give to BIND: `Failure(code)` has `code ≠ 0` (R160). -/
def answerFits (answer : BindAnswer) : Bool :=
  match answer with
  | .success => true
  | .failure code => code != 0

/-- An outcome the host can report of a write of `bytes`: `Short(n)` has `n < |bytes|` (R175). -/
def outcomeFits (o : WriteOutcome) (bytes : Bytes) : Bool :=
  match o with
  | .ok => true
  | .short n => decide (n < bytes.length)
  | .error => true

end Sys2Proof.Machine
end

