-- ==== Sys2Proof/Machine/Flags.lean ====
section
/-! DEFINITION. The flags word of a header (10_state.md R26, R27; 30_encoding.md R72) and the one flags computation of
the block, the flags of a reply (41_policy.md R140, R142–R144). -/

namespace Sys2Proof.Machine

/-- QR, bit 15: the response bit (R26). -/
def flagQR (flags : U16) : Bool := flags.getLsbD 15

/-- RD, bit 8: recursion desired (R26). -/
def flagRD (flags : U16) : Bool := flags.getLsbD 8

/-- RCODE, bits 3:0: the response code, any of 16 values in a query (R26, R27). -/
def flagRcode (flags : U16) : BitVec 4 := flags.extractLsb' 0 4

/-- The response codes the source names (R27). -/
inductive ResponseCode where
  | noError
  | formatError
  | serverFailure
  | nameError
  deriving DecidableEq, Repr

/-- The value of a named response code (R27). -/
def ResponseCode.value : ResponseCode → BitVec 4
  | .noError => 0#4
  | .formatError => 1#4
  | .serverFailure => 2#4
  | .nameError => 3#4

/-- The flags of a reply: QR set, RD copied from the query, RCODE 3, every other bit 0 (R140). -/
def replyFlags (query : U16) : U16 :=
  0x8000#16 ||| (query &&& 0x0100#16) ||| 0x0003#16

/-- The query classes the source names, IN and ANY (R28). -/
def classIN : U16 := 1#16
def classANY : U16 := 255#16

end Sys2Proof.Machine
end

