-- ==== Sys2Proof/Machine/Codec.lean ====
section
/-! DEFINITION. The Message Codec: DECODE and ENCODE (40_codec.md R100–R124), over the wire formats of 30_encoding.md
R70–R79, and their command forms. -/

namespace Sys2Proof.Machine

/-- A read of DECODE: the value and the cursor after it (R29). -/
abbrev ReadAt (α : Type) := Result BlockError (α × Nat)

/-- `MemRead(pos, n)` (R13): the `n` bytes at `pos`, or MalformedMessage where they run past the end of `input`. -/
def memRead (input : Bytes) (pos n : Nat) : ReadAt Bytes :=
  if pos + n > input.length then .err .malformedMessage
  else .ok ((input.drop pos).take n, pos + n)

/-- `ReadU8()` (R101). -/
def readU8 (input : Bytes) (pos : Nat) : ReadAt Byte :=
  (memRead input pos 1).map fun (b, p) => (b.getD 0 0#8, p)

/-- `ReadU16()`, big-endian (R101). -/
def readU16 (input : Bytes) (pos : Nat) : ReadAt U16 :=
  (memRead input pos 2).map fun (b, p) => (be16 (b.getD 0 0#8) (b.getD 1 0#8), p)

/-- `DecodeHeader()` from the start of `input` (R102). -/
def decodeHeader (input : Bytes) : ReadAt Header :=
  if input.length < 12 then .err .malformedMessage
  else
    (readU16 input 0).bind fun (id, p) =>
    (readU16 input p).bind fun (flags, p) =>
    (readU16 input p).bind fun (qdcount, p) =>
    (readU16 input p).bind fun (ancount, p) =>
    (readU16 input p).bind fun (nscount, p) =>
    (readU16 input p).map fun (arcount, p) =>
      ({ id, flags, qdcount, ancount, nscount, arcount }, p)

/-- `DecodeName()` (R106): labels until a zero length byte. Every non-zero length byte is a plain length (R76, R77).
Each pass moves the cursor by at least 1, so a `fuel` of `input.length + 1` never runs out. -/
def decodeName (fuel : Nat) (input : Bytes) (pos : Nat) : ReadAt (List Label) :=
  match fuel with
  | 0 => .err .malformedMessage
  | fuel + 1 =>
    (readU8 input pos).bind fun (n, p) =>
    if n = 0#8 then .ok ([], p)
    else
      (memRead input p n.toNat).bind fun (body, p) =>
      (decodeName fuel input p).map fun (labels, p) => (Label.ofBytes body :: labels, p)

/-- `DecodeQuestion()` (R105): a name, then one read of 4 bytes for qtype and qclass (R108). -/
def decodeQuestion (input : Bytes) (pos : Nat) : ReadAt Question :=
  (decodeName (input.length + 1) input pos).bind fun (labels, p) =>
  (memRead input p 4).map fun (tail, p) =>
    ({ labels := labels
       qtype := be16 (tail.getD 0 0#8) (tail.getD 1 0#8)
       qclass := be16 (tail.getD 2 0#8) (tail.getD 3 0#8) }, p)

/-- The question loop, exactly `count` times (R104). -/
def decodeQuestions (count : Nat) (input : Bytes) (pos : Nat) : ReadAt (List Question) :=
  match count with
  | 0 => .ok ([], pos)
  | count + 1 =>
    (decodeQuestion input pos).bind fun (q, p) =>
    (decodeQuestions count input p).map fun (qs, p) => (q :: qs, p)

/-- DECODE with the final cursor, the `consumed` of R131. -/
def decodeAt (input : Bytes) : ReadAt Message :=
  (decodeHeader input).bind fun (header, p) =>
  (decodeQuestions header.qdcount.toNat input p).map fun (questions, p) => ({ header, questions }, p)

/-- DECODE(in) (R100). -/
def decodeMessage (input : Bytes) : Result BlockError Message :=
  (decodeAt input).map Prod.fst

/-- A name on the wire: its labels, then the terminator (R75, R120). -/
def encodeName (labels : List Label) : Bytes :=
  labels.flatMap labelRecord ++ [0x00#8]

/-- A question record on the wire (R74, R120). -/
def encodeQuestion (q : Question) : Bytes :=
  encodeName q.labels ++ bytes16 q.qtype ++ bytes16 q.qclass

/-- ENCODE(m) (R120): the header verbatim, whatever its counts say, then every question of the list (R123). The output
only grows (R13). -/
def encodeMessage (m : Message) : Bytes :=
  headerBytes m.header ++ m.questions.flatMap encodeQuestion

/-- DECODE as a command (R100, R31). -/
def execDecode (input : Bytes) (s : State) : Answer :=
  command 0x01#8 (.bytes input) ((decodeMessage input).map .message) s

/-- ENCODE as a command (R120, R31): it never fails. -/
def execEncode (m : Message) (s : State) : Answer :=
  command 0x02#8 (.message m) (.ok (.bytes (encodeMessage m))) s

/-- ROUNDTRIP (R89): ENCODE the message, then DECODE the bytes. -/
def roundTrip (m : Message) : Result BlockError Message :=
  decodeMessage (encodeMessage m)

end Sys2Proof.Machine
end

