-- ==== Sys2Proof/Machine/Policy.lean ====
section
/-! DEFINITION. The Response Policy: BUILD_REPLY (41_policy.md R140–R151), its command form, and PROCESS, what HANDLE
computes (30_encoding.md R89). -/

namespace Sys2Proof.Machine

/-- A question the class filter keeps: class IN or ANY (R146). -/
def keptByFilter (q : Question) : Bool :=
  q.qclass == classIN || q.qclass == classANY

/-- The questions of the reply (R145, R146). -/
def replyQuestions (cfg : Config) (q : Message) : List Question :=
  if cfg.classFilter then q.questions.filter keptByFilter else q.questions

/-- The number of kept questions as a field; a free value where no u16 is that number (R146, R21; assumption 12). -/
def keptCount (kept : Nat) : U16 :=
  if kept < 65536 then BitVec.ofNat 16 kept else Config.freeCount kept

/-- The question count of the reply: the query's, or the number kept (R145, R146). -/
def replyCount (cfg : Config) (q : Message) : U16 :=
  if cfg.classFilter then keptCount (replyQuestions cfg q).length else q.header.qdcount

/-- BUILD_REPLY(q) (R140). -/
def buildReply (cfg : Config) (q : Message) : Message where
  header :=
    { id := q.header.id
      flags := replyFlags q.header.flags
      qdcount := replyCount cfg q
      ancount := 0#16
      nscount := 0#16
      arcount := 0#16 }
  questions := replyQuestions cfg q

/-- BUILD_REPLY as a command (R140, R31): it never fails. -/
def execBuildReply (q : Message) (s : State) : Answer :=
  command 0x03#8 (.message q) (.ok (.message (buildReply s.cfg q))) s

/-- PROCESS (R89): DECODE, then BUILD_REPLY, then ENCODE; an error of DECODE ends it. -/
def process (cfg : Config) (payload : Bytes) : Result BlockError Bytes :=
  (decodeMessage payload).map fun q => encodeMessage (buildReply cfg q)

/-- PROCESS as operations (R89): the commands it expands into. -/
def expandProcess (cfg : Config) (payload : Bytes) : List Instr :=
  match decodeMessage payload with
  | .ok q => [.decode payload, .buildReply q, .encode (buildReply cfg q)]
  | .err _ => [.decode payload]

/-- ROUNDTRIP as operations (R89). -/
def expandRoundTrip (m : Message) : List Instr :=
  [.encode m, .decode (encodeMessage m)]

end Sys2Proof.Machine
end

