-- ==== Sys2Proof/Machine/Dispatcher.lean ====
section
/-! DEFINITION. The dispatcher steps BIND, RECV, RECV_FAIL, HANDLE, SEND and STOP (42_dispatcher.md R160–R183). A step
whose precondition does not hold has no step (R14). -/

namespace Sys2Proof.Machine

/-- BIND (R160): in Boot with the socket unbound. On success the socket is bound to the configured address; a failure
is the IOError on bind. -/
def execBind (answer : BindAnswer) (s : State) : Answer :=
  ifLegal s <|
    if s.phase = .boot ∧ s.sock = .unbound ∧ answerFits answer = true then
      match answer with
      | .success =>
        moved (((s.withSock (.bound s.cfg.bindHost s.cfg.port)).withPhase .running).emit .bound)
      | .failure code => moved (s.takeError (.ioBind code))
    else noStep s

/-- Spawn the handler of a delivered datagram: its payload is a copy of the bytes in the staging buffer, made before the
handler exists (R57, R163). -/
def State.spawn (s : State) (peer : Addr) : State :=
  ((s.withHandlers (s.handlers.put s.nextId { peer := peer, payload := s.staging, stage := .ready })).withNextId
    (s.nextId + 1)).emit (.rx s.nextId peer s.staging)

/-- RECV (R163): the host delivers `payload` into the staging buffer; a handler is spawned, or, over the in-flight
limit, the datagram is rejected without one (R166). It does not look at the bytes (R165). -/
def execRecv (peer : Nat) (payload : Bytes) (s : State) : Answer :=
  ifLegal s <|
    match s.peerAt? peer with
    | none => .refused (.peerOutsideList peer)
    | some a =>
      if s.phase = .running ∧ s.canDeliver payload then
        let t := s.withStaging payload
        if s.limitReached then moved ((t.emit (.reject a payload)).logMaybe .rxDump)
        else moved ((t.spawn a).logMaybe .rxDump)
      else noStep s

/-- RECV_FAIL (R167): the IOError on receive; the loop goes on. -/
def execRecvFail (s : State) : Answer :=
  ifLegal s (if s.phase = .running then moved (s.takeError .ioReceive) else noStep s)

/-- HANDLE(h) (R170), one indivisible step (R171): decode the handler's own payload; a malformed one is dropped
without a reply (R172), any other makes the handler's pending reply. -/
def execHandle (h : Nat) (s : State) : Answer :=
  ifLegal s <|
    match s.readyHandler? h with
    | none => noStep s
    | some r =>
      match process s.cfg r.payload with
      | .err _ => moved (s.takeError (.malformedMessage h))
      | .ok reply =>
        moved ((s.withHandlers (s.handlers.put h { r with stage := .pending reply })).logMaybe .parsed)

/-- One write of `bytes` to `peer`; the handler ends, whatever the outcome, and an outcome other than `Ok` is the
IOError on write (R175, R176). -/
def State.write (s : State) (h : Nat) (peer : Addr) (bytes : Bytes) (o : WriteOutcome) : State :=
  let t := (s.emit (.tx h peer bytes o)).withHandlers (s.handlers.remove h)
  (if o = .ok then t else t.takeError .ioWrite).logMaybe .txDump

/-- SEND(h, outcome) (R175): the pending bytes go to the handler's captured peer (R177). -/
def execSend (h : Nat) (o : WriteOutcome) (s : State) : Answer :=
  ifLegal s <|
    match s.pendingReply? h with
    | none => noStep s
    | some (peer, bytes) =>
      if outcomeFits o bytes then moved (s.write h peer bytes o) else noStep s

/-- STOP (R182): the process is stopped from outside; live handlers stay and never step again. -/
def execStop (s : State) : Answer :=
  ifLegal s <|
    if s.phase = .terminated then noStep s else moved ((s.withPhase .terminated).emit .stopped)

end Sys2Proof.Machine
end

