-- ==== Sys2Proof/Machine/Dispatch.lean ====
section
/-! DEFINITION. exec: one arm per operation of 30_encoding.md R85. -/

namespace Sys2Proof.Machine

/-- The meaning of each operation. -/
def exec (i : Instr) (s : State) : Host.Outcome State Fault Refusal :=
  match i with
  | .decode input => Sys2Proof.Machine.execDecode input s
  | .encode m => Sys2Proof.Machine.execEncode m s
  | .buildReply q => Sys2Proof.Machine.execBuildReply q s
  | .bind answer => Sys2Proof.Machine.execBind answer s
  | .recv peer payload => Sys2Proof.Machine.execRecv peer payload s
  | .recvFail => Sys2Proof.Machine.execRecvFail s
  | .handle h => Sys2Proof.Machine.execHandle h s
  | .send h o => Sys2Proof.Machine.execSend h o s
  | .stop => Sys2Proof.Machine.execStop s

end Sys2Proof.Machine
end

