-- ==== Sys2Proof/Machine/Step.lean ====
section
/-! DEFINITION. One step: the operation to come next is fetched and run; with none the machine waits. -/

namespace Sys2Proof.Machine

/-- One turn of the machine. Under a legal configuration (R33, R232): a record that spells no operation is refused
(R87); with no operation the receive loop waits for the host (R164); any other operation is run (R84, R186). -/
def step (s : State) : Host.Outcome State Fault Refusal :=
  ifLegal s <|
    match s.fetch with
    | .err e => .refused (.badRecord e)
    | .ok none => waits s
    | .ok (some (i, u)) => exec i u

/-- `s` with a table word as the next operation: nothing on the agenda before it, the word as the stream, and a peer
list that has an address for every index a record can spell, since the peer list is given with the stream (R85;
assumption 5). -/
def State.withFetchWord (s : State) (nbits w : Nat) : State :=
  ((s.withAgenda []).withStream (tableBytes nbits w)).withPeers (fillPeers s.peers)

end Sys2Proof.Machine
end

