-- ==== Sys2Proof/Machine/Text.lean ====
section
/-! DEFINITION. The text syntax of operations (30_encoding.md R88) over the message notation of 00_scope.md R15: one
operation or pseudo-operation (R89) a line, `;` starting a comment. An assembler from lines to records; no step reads
text. What R88 does not fix (spacing, number bases) is assumption 11. -/

namespace Sys2Proof.Machine.Text

/-- The characters of a line. -/
abbrev Chars := List Char

/-- The tokens of a line: words (mnemonics, numbers, names), quoted labels, and the notation's marks. -/
inductive Token where
  | word (w : Chars)
  | quoted (w : Chars)
  | lparen
  | rparen
  | lbrace
  | rbrace
  | lbracket
  | rbracket
  | comma
  | colon
  deriving DecidableEq, Repr

/-- The mark a character is, if it is one; the braces are U+007B and U+007D. -/
def markOf (c : Char) : Option Token :=
  if c = '(' then some .lparen
  else if c = ')' then some .rparen
  else if c.toNat = 123 then some .lbrace
  else if c.toNat = 125 then some .rbrace
  else if c = '[' then some .lbracket
  else if c = ']' then some .rbracket
  else if c = ',' then some .comma
  else if c = ':' then some .colon
  else none

/-- The word read so far, held reversed. -/
def wordOf (acc : Chars) : List Token :=
  if acc.isEmpty then [] else [.word acc.reverse]

/-- The tokens of a line; `;` starts a comment (R88). `none` where a quote does not close. -/
def lexFrom (inQuote : Bool) (acc : Chars) : Chars → Option (List Token)
  | [] => if inQuote then none else some (wordOf acc)
  | c :: cs =>
    if inQuote then
      if c = '"' then (lexFrom false [] cs).map (.quoted acc.reverse :: ·)
      else lexFrom true (c :: acc) cs
    else if c = ';' then some (wordOf acc)
    else if c = '"' then (lexFrom true [] cs).map (wordOf acc ++ ·)
    else if c = ' ' ∨ c = '\t' then (lexFrom false [] cs).map (wordOf acc ++ ·)
    else
      match markOf c with
      | some t => (lexFrom false [] cs).map (wordOf acc ++ t :: ·)
      | none => lexFrom false (c :: acc) cs

/-- The value of a digit in a base of at most 16. -/
def digitOf (base : Nat) (c : Char) : Option Nat :=
  let n := c.toNat
  let d := if 48 ≤ n ∧ n ≤ 57 then n - 48 else if 97 ≤ n ∧ n ≤ 102 then n - 87
    else if 65 ≤ n ∧ n ≤ 70 then n - 55 else 16
  if d < base then some d else none

/-- The value of a string of digits after the value `v` of the digits before them. -/
def digitsFrom (base v : Nat) : Chars → Option Nat
  | [] => some v
  | c :: cs => (digitOf base c).bind fun d => digitsFrom base (v * base + d) cs

/-- A number: hexadecimal after `0x` (R11), else decimal. -/
def numberOf (w : Chars) : Option Nat :=
  match w with
  | [] => none
  | '0' :: 'x' :: [] => none
  | '0' :: 'x' :: ds => digitsFrom 16 0 ds
  | ds => digitsFrom 10 0 ds

/-- A number below `bound`. -/
def boundedOf (bound : Nat) (w : Chars) : Option Nat :=
  (numberOf w).bind fun n => if n < bound then some n else none

/-- A number that fits `bits` bits. -/
def fieldOf (bits : Nat) (w : Chars) : Option (BitVec bits) :=
  (boundedOf (2 ^ bits) w).map (BitVec.ofNat bits)

/-- `<hex bytes>`: pairs of hex digits separated by spaces (R88). -/
def hexBytes : List Token → Option Bytes
  | [] => some []
  | .word [a, b] :: rest =>
    (digitsFrom 16 0 [a, b]).bind fun n => (hexBytes rest).map (BitVec.ofNat 8 n :: ·)
  | _ => none

/-- A label written as a quoted string is the byte string of its ASCII codes (R15). -/
def labelOf (w : Chars) : Option Label :=
  if h : (w.map fun c => BitVec.ofNat 8 c.toNat).length ≤ 255 then
    if w.all (fun c => decide (c.toNat < 128)) then some ⟨w.map fun c => BitVec.ofNat 8 c.toNat, h⟩ else none
  else none

/-- The labels of a question, up to the closing bracket. -/
def labelsOf : List Token → Option (List Label × List Token)
  | .rbracket :: rest => some ([], rest)
  | .quoted w :: .rbracket :: rest => (labelOf w).map fun l => ([l], rest)
  | .quoted w :: .comma :: .quoted v :: rest =>
    (labelOf w).bind fun l => (labelsOf (.quoted v :: rest)).map fun (ls, rest) => (l :: ls, rest)
  | _ => none

/-- Set a header field by its name (R21). -/
def setField (h : Header) (name value : Chars) : Option Header :=
  (fieldOf 16 value).bind fun v =>
    if name = "id".toList then some { h with id := v }
    else if name = "flags".toList then some { h with flags := v }
    else if name = "qdcount".toList then some { h with qdcount := v }
    else if name = "ancount".toList then some { h with ancount := v }
    else if name = "nscount".toList then some { h with nscount := v }
    else if name = "arcount".toList then some { h with arcount := v }
    else none

/-- The fields of `header`, up to the closing brace. -/
def fieldsOf (h : Header) : List Token → Option (Header × List Token)
  | .rbrace :: rest => some (h, rest)
  | .word k :: .colon :: .word v :: .rbrace :: rest => (setField h k v).map fun h => (h, rest)
  | .word k :: .colon :: .word v :: .comma :: rest => (setField h k v).bind fun h => fieldsOf h rest
  | _ => none

/-- One question of the notation, its keys in the order R15 writes them. -/
def questionOf : List Token → Option (Question × List Token)
  | .word q :: .lbrace :: .word l :: .colon :: .lbracket :: rest =>
    if q = "question".toList ∧ l = "labels".toList then
      (labelsOf rest).bind fun (labels, rest) =>
        match rest with
        | .comma :: .word t :: .colon :: .word tv :: .comma :: .word c :: .colon :: .word cv :: .rbrace :: rest =>
          if t = "qtype".toList ∧ c = "qclass".toList then
            (fieldOf 16 tv).bind fun qtype => (fieldOf 16 cv).map fun qclass => ({ labels, qtype, qclass }, rest)
          else none
        | _ => none
    else none
  | _ => none

/-- The questions up to the end of the line; `fuel` bounds their number, and each takes at least one token. -/
def questionsOf (fuel : Nat) (ts : List Token) : Option (List Question) :=
  match fuel, ts with
  | _, [] => some []
  | 0, _ => none
  | fuel + 1, ts => (questionOf ts).bind fun (q, rest) => (questionsOf fuel rest).map (q :: ·)

/-- `<message>`: a header, its unwritten fields 0, then the questions (R15). -/
def messageOf : List Token → Option Message
  | .word w :: .lbrace :: rest =>
    if w = "header".toList then
      (fieldsOf { id := 0, flags := 0, qdcount := 0, ancount := 0, nscount := 0, arcount := 0 } rest).bind
        fun (header, rest) => (questionsOf rest.length rest).map fun questions => { header, questions }
    else none
  | _ => none

/-- `h<id>` (R88). -/
def handlerOf : Chars → Option Nat
  | 'h' :: ds => boundedOf 65536 ds
  | _ => none

/-- `ok`, `short(<n>)` or `error` (R88). -/
def outcomeOf : List Token → Option WriteOutcome
  | [.word w] => if w = "ok".toList then some .ok else if w = "error".toList then some .error else none
  | [.word w, .lparen, .word n, .rparen] => if w = "short".toList then (boundedOf 65536 n).map .short else none
  | _ => none

/-- `ok` or `fail(<code>)` (R88). -/
def answerOf : List Token → Option BindAnswer
  | [.word w] => if w = "ok".toList then some .success else none
  | [.word w, .lparen, .word n, .rparen] => if w = "fail".toList then (boundedOf 256 n).map .failure else none
  | _ => none

/-- The index of a name in the peer list (R85, R88). -/
def peerOf (names : List Chars) (w : Chars) : Option Nat :=
  (names.idxOf? w).bind fun n => if n < 256 then some n else none

/-- The operation of a mnemonic and its operands (R88). -/
def operationOf (names : List Chars) (op : Chars) (ts : List Token) : Option Instr :=
  if op = "DECODE".toList then (hexBytes ts).map .decode
  else if op = "ENCODE".toList then (messageOf ts).map .encode
  else if op = "BUILD_REPLY".toList then (messageOf ts).map .buildReply
  else if op = "BIND".toList then (answerOf ts).map .bind
  else if op = "RECV".toList then
    match ts with
    | .word p :: .comma :: rest => (peerOf names p).bind fun peer => (hexBytes rest).map (.recv peer)
    | _ => none
  else if op = "RECV_FAIL".toList then if ts = [] then some .recvFail else none
  else if op = "HANDLE".toList then
    match ts with
    | [.word h] => (handlerOf h).map .handle
    | _ => none
  else if op = "SEND".toList then
    match ts with
    | .word h :: .comma :: rest => (handlerOf h).bind fun h => (outcomeOf rest).map (.send h)
    | _ => none
  else if op = "STOP".toList then if ts = [] then some .stop else none
  else none

/-- The operations a line's mnemonic and operands stand for: one operation (R88), or the expansion of a
pseudo-operation, which for PROCESS depends on the configuration (R89). -/
def operationsOf (cfg : Config) (names : List Chars) (op : Chars) (ts : List Token) : Option (List Instr) :=
  if op = "PROCESS".toList then (hexBytes ts).map (expandProcess cfg)
  else if op = "ROUNDTRIP".toList then (messageOf ts).map expandRoundTrip
  else (operationOf names op ts).map fun i => [i]

/-- The operations of a line, none on an empty or comment line; `none` where the line spells no well-formed
operation. -/
def lineOf (cfg : Config) (names : List Chars) (line : Chars) : Option (List Instr) :=
  (lexFrom false [] line).bind fun ts =>
    match ts with
    | [] => some []
    | .word op :: rest =>
      (operationsOf cfg names op rest).bind fun is => if is.all Instr.wf then some is else none
    | _ => none

/-- The operations of a program's lines. -/
def linesOf (cfg : Config) (names : List Chars) : List Chars → Option (List Instr)
  | [] => some []
  | line :: rest => (lineOf cfg names line).bind fun is => (linesOf cfg names rest).map (is ++ ·)

/-- The stream a text assembles to (R83, R85, R88, R89). -/
def assemble (cfg : Config) (names : List Chars) (lines : List Chars) : Option Bytes :=
  (linesOf cfg names lines).map fun is => is.flatMap encodeRecord

end Sys2Proof.Machine.Text
end

