-- ==== Sys2Proof/Safety.lean ====
section
/-! DEFINITION. The terms claims about the block are stated in: what of a state a claim may read, which operation takes
a step, the invariants of a run, the runs themselves, and the per-flow law of 42_dispatcher.md R189. -/

namespace Sys2Proof

/-- A question the wire can carry: every label has at least one byte. -/
def Question.OnWire (q : Question) : Prop :=
  ∀ l ∈ q.labels, 1 ≤ l.bytes.length

/-- The messages the wire can carry and DECODE returns (R115): `qdcount` is the number of questions, and every label
has at least one byte (at most 255 by its type). -/
def Message.OnWire (m : Message) : Prop :=
  m.header.qdcount.toNat = m.questions.length ∧ ∀ q ∈ m.questions, q.OnWire

end Sys2Proof

namespace Sys2Proof.Machine

/-- The state without its diagnostic output, which no claim may read (R39, R180). `draws` only counts the diagnostic
draws and goes with it. -/
def State.quiet (s : State) : State :=
  { s with diag := [], draws := 0 }

/-- Operation `i` has a step from `s`, to `t` (R14). -/
def Takes (i : Instr) (s t : State) : Prop :=
  exec i s = .next t ∧ t.verdict = .moved

/-- Operation `i` has no step from `s` (R14): nothing changes but the model's own verdict. -/
def HasNoStep (i : Instr) (s : State) : Prop :=
  exec i s = .next { s with verdict := .noStep }

/-- Operations one after another, stopping at the first that does not answer a next state. -/
def execAll : List Instr → State → Answer
  | [], s => .next s
  | i :: is, s =>
    match exec i s with
    | .next t => execAll is t
    | .fault e => .fault e
    | .refused e => .refused e

/-- The handler operations: the two steps a handler agent takes, for its own id (R161). -/
inductive HandlerOp (h : Nat) : Instr → Prop where
  | handle : HandlerOp h (.handle h)
  | send (o : WriteOutcome) : HandlerOp h (.send h o)

/-- The codec commands (R82). -/
inductive CodecOp : Instr → Prop where
  | decode (input : Bytes) : CodecOp (.decode input)
  | encode (m : Message) : CodecOp (.encode m)
  | buildReply (q : Message) : CodecOp (.buildReply q)

/-- The event ends the flow of handler `h`: `Drop(h)` or `Tx(h, ...)`. -/
def Event.Ends (h : Nat) : Event → Prop
  | .drop k => k = h
  | .tx k _ _ _ => k = h
  | _ => False

/-- The event is an `Rx(h, ...)`. -/
def Event.Opens (h : Nat) : Event → Prop
  | .rx k _ _ => k = h
  | _ => False

/-- The handler table is in canonical form, and every live id was given out (R36, R37). -/
def TableInv (s : State) : Prop :=
  s.handlers.wf ∧ ∀ h r, s.handlers.get? h = some r → h < s.nextId

/-- Phase, socket and exit status go together (R34, R35, R40, R162): in Boot nothing has happened; in Running the socket
is bound as configured; an exit status is non-zero and only a terminated process has one. -/
def PhaseInv (s : State) : Prop :=
  (s.phase = .boot → s.sock = .unbound ∧ s.handlers = [] ∧ s.nextId = 0 ∧ s.trace = [] ∧ s.exit = none) ∧
  (s.phase = .running → s.sock = .bound s.cfg.bindHost s.cfg.port ∧ s.exit = none) ∧
  ∀ c, s.exit = some c → c ≠ 0 ∧ s.phase = .terminated

/-- Sizes (R50, R63, R64): the staging buffer and every payload hold at most `P_RX_MAX` bytes, and a pending reply is no
longer than its payload. -/
def SizeInv (s : State) : Prop :=
  s.staging.length ≤ s.cfg.rxMax ∧
  ∀ h r, s.handlers.get? h = some r →
    r.payload.length ≤ s.cfg.rxMax ∧ ∀ b, r.stage = .pending b → b.length ≤ r.payload.length

/-- What every run keeps true of the trace and the handler table together; the per-flow law R189 follows from it. -/
structure FlowInv (s : State) : Prop where
  /-- The table is canonical and its ids were given out. -/
  table : TableInv s
  /-- Every `Rx` carries an id that was given out. -/
  rxBelow : ∀ h a d, .rx h a d ∈ s.trace → h < s.nextId
  /-- An id stands in one `Rx` only (R37). -/
  rxOnce : ∀ pre post h a d, s.trace = pre ++ .rx h a d :: post → ∀ e ∈ pre ++ post, ¬ e.Opens h
  /-- A live handler's datagram was received from its peer, its flow has not ended, and a pending reply is PROCESS of
  its payload (R36, R170). -/
  live : ∀ h r, s.handlers.get? h = some r →
    .rx h r.peer r.payload ∈ s.trace ∧ (∀ e ∈ s.trace, ¬ e.Ends h) ∧
      ∀ b, r.stage = .pending b → process s.cfg r.payload = .ok b
  /-- A handler that is gone has ended its flow. -/
  gone : ∀ h a d, .rx h a d ∈ s.trace → s.handlers.get? h = none → ∃ e ∈ s.trace, e.Ends h
  /-- A `Tx` comes after its `Rx`, writes PROCESS of that datagram to that peer, and is the one end of its flow. -/
  tx : ∀ pre post h a b o, s.trace = pre ++ .tx h a b o :: post →
    (∃ d, .rx h a d ∈ pre ∧ process s.cfg d = .ok b) ∧ ∀ e ∈ pre ++ post, ¬ e.Ends h
  /-- A `Drop` comes after its `Rx`, whose datagram is malformed, and is the one end of its flow. -/
  drop : ∀ pre post h, s.trace = pre ++ .drop h :: post →
    (∃ a d, .rx h a d ∈ pre ∧ process s.cfg d = .err .malformedMessage) ∧ ∀ e ∈ pre ++ post, ¬ e.Ends h

/-- The per-flow law R189. HANDLE(h) was taken when handler `h` is no longer live in stage Ready. -/
def PerFlowLaw (s : State) : Prop :=
  (∀ h a d, .rx h a d ∈ s.trace →
    (process s.cfg d = .err .malformedMessage →
      (∀ a' b o, .tx h a' b o ∉ s.trace) ∧
      ((∀ r, s.handlers.get? h = some r → r.stage ≠ .ready) → .drop h ∈ s.trace)) ∧
    (∀ reply, process s.cfg d = .ok reply →
      ∀ pre post a' b o, s.trace = pre ++ .tx h a' b o :: post →
        a' = a ∧ b = reply ∧ .rx h a d ∈ pre ∧ ∀ a'' b' o', .tx h a'' b' o' ∉ pre ++ post)) ∧
  ∀ h, (∀ a d, .rx h a d ∉ s.trace) → ∀ e ∈ s.trace, ¬ e.Ends h

/-- A process start: the reset state with any configuration (R43 "the configuration given"), and whatever operations and
peer list are given with it. -/
def Starts (s : State) : Prop :=
  ∃ cfg agenda stream peers,
    s = { State.reset with cfg := cfg, agenda := agenda, stream := stream, peers := peers }

/-- What the environment may do between two turns: choose operations to come, as operations or as records, and name
new peers, each after those already there. -/
def State.given (s : State) (agenda : List Instr) (stream : Bytes) (peers : List Addr) : State :=
  ((s.withAgenda (s.agenda ++ agenda)).withStream (s.stream ++ stream)).withPeers (s.peers ++ peers)

/-- One turn in the environment: the host and the scheduler choose what may come, then the machine steps. -/
def Turn (s t : State) : Prop :=
  ∃ agenda stream peers, step (s.given agenda stream peers) = .next t

/-- A turn in which the operation `i` has its step. -/
def TurnOf (i : Instr) (s t : State) : Prop :=
  ∃ agenda stream peers u, (s.given agenda stream peers).fetch = .ok (some (i, u)) ∧ Takes i u t

/-- The states of runs: any interleaving of operations the host and the scheduler choose (R186). -/
inductive Reachable : State → Prop where
  | start {s : State} : Starts s → Reachable s
  | turn {s t : State} : Reachable s → Turn s t → Reachable t

/-- A run without end. -/
def Run (state : Nat → State) : Prop :=
  ∀ n, Turn (state n) (state (n + 1))

/-- Weak fairness (R187): every Ready handler eventually takes HANDLE and every Pending handler eventually takes SEND,
unless the run terminates first. -/
def Fair (state : Nat → State) : Prop :=
  ∀ n h r, (state n).handlers.get? h = some r →
    ∃ m, n ≤ m ∧ ((state m).phase = .terminated ∨
      match r.stage with
      | .ready => TurnOf (.handle h) (state m) (state (m + 1))
      | .pending _ => ∃ o, TurnOf (.send h o) (state m) (state (m + 1)))

end Sys2Proof.Machine
end

