-- ==== Sys2Proof/Certificates/Slice0/Obligations.lean ====
section
/-! DEFINITION. The statements for the provers. A statement about a next state `t` compares `t.quiet` with a record
update of `s`: every field the update does not name is unchanged, and the diagnostic output, which no claim may read
(10_state.md R39), is left out. `verdict` is the model's own field (assumption 6): `.moved` where the operation has a
step, `.noStep` where it has none; a statement that names it is derived, not stated. So is one on a rule that the spec
marks as derived or as its own decision: OBLIGATIONS.json says which. -/

open Sys2Proof Sys2Proof.Machine

/-! ## Records -/

/-- 30_encoding.md R83–R86: the record of a well-formed operation reads back as that operation, whatever follows it. -/
def Obligations.RecordReadsBack : Prop :=
  ∀ (i : Instr) (rest : Bytes), i.wf = true → decodeRecord (encodeRecord i ++ rest) = .ok (i, rest)

/-- R83–R86: whatever the decoder reads is a well-formed operation, and the bytes it took are that operation's record. -/
def Obligations.RecordReadWasWritten : Prop :=
  ∀ (bytes rest : Bytes) (i : Instr),
    decodeRecord bytes = .ok (i, rest) → i.wf = true ∧ bytes = encodeRecord i ++ rest

/-- Eleven records of the programs P1–P4 of 95_test_vectors.md, each as it stands there byte by byte, read as their text
says: at least one of each operation, and of each outcome of SEND. Two records that stand in no program, laid out from
R85: a failed BIND, and a HANDLE of an id of two bytes, with bytes after it. -/
def Obligations.ProgramRecordsDecode : Prop :=
  decodeRecord [0x10, 0x00] = .ok (.bind .success, []) ∧
  decodeRecord
      [0x11, 0x00, 0x00, 0x10, 0x12, 0x34, 0x01, 0x00, 0x00, 0x01, 0x00, 0x00, 0x00, 0x00, 0x00, 0x00, 0x07, 0x65, 0x78,
       0x61] =
    .ok (.recv 0
      [0x12, 0x34, 0x01, 0x00, 0x00, 0x01, 0x00, 0x00, 0x00, 0x00, 0x00, 0x00, 0x07, 0x65, 0x78, 0x61], []) ∧
  decodeRecord [0x12] = .ok (.recvFail, []) ∧
  decodeRecord [0x20, 0x00, 0x01] = .ok (.handle 1, []) ∧
  decodeRecord [0x21, 0x00, 0x00, 0x00] = .ok (.send 0 .ok, []) ∧
  decodeRecord [0x21, 0x00, 0x00, 0x01, 0x00, 0x05] = .ok (.send 0 (.short 5), []) ∧
  decodeRecord [0x21, 0x00, 0x01, 0x02] = .ok (.send 1 .error, []) ∧
  decodeRecord [0x30] = .ok (.stop, []) ∧
  decodeRecord
      [0x01, 0x00, 0x14, 0x01, 0x02, 0x01, 0x00, 0x00, 0x01, 0x00, 0x00, 0x00, 0x00, 0x00, 0x00, 0x02, 0x61, 0x62, 0x00,
       0x00, 0x01, 0x00, 0x01] =
    .ok (.decode
      [0x01, 0x02, 0x01, 0x00, 0x00, 0x01, 0x00, 0x00, 0x00, 0x00, 0x00, 0x00, 0x02, 0x61, 0x62, 0x00, 0x00, 0x01, 0x00,
       0x01], []) ∧
  decodeRecord
      [0x02, 0x01, 0x02, 0x01, 0x00, 0x00, 0x01, 0x00, 0x00, 0x00, 0x00, 0x00, 0x00, 0x00, 0x01, 0x00, 0x01, 0x02,
       0x61, 0x62, 0x00, 0x01, 0x00, 0x01] =
    .ok (.encode
      { header := { id := 0x0102, flags := 0x0100, qdcount := 1, ancount := 0, nscount := 0, arcount := 0 }
        questions := [{ labels := [Label.ofBytes [0x61, 0x62]], qtype := 1, qclass := 1 }] }, []) ∧
  decodeRecord
      [0x03, 0x01, 0x02, 0x01, 0x00, 0x00, 0x01, 0x00, 0x00, 0x00, 0x00, 0x00, 0x00, 0x00, 0x01, 0x00, 0x01, 0x02,
       0x61, 0x62, 0x00, 0x01, 0x00, 0x01] =
    .ok (.buildReply
      { header := { id := 0x0102, flags := 0x0100, qdcount := 1, ancount := 0, nscount := 0, arcount := 0 }
        questions := [{ labels := [Label.ofBytes [0x61, 0x62]], qtype := 1, qclass := 1 }] }, []) ∧
  decodeRecord [0x10, 0x01, 0x07] = .ok (.bind (.failure 7), []) ∧
  decodeRecord [0x20, 0x01, 0x02, 0x30] = .ok (.handle 0x0102, [0x30])

/-- R88, R15: a line of each form, with each answer of BIND and each outcome of SEND, assembles to the record R85 and R86
lay out for it. The lines of P1–P4 of 95_test_vectors.md are `BIND ok`, `RECV_FAIL`, `STOP`, `HANDLE h1`, the three of
SEND, and P4's three with its message written out in braces (U+007B and U+007D); the comment, `BIND fail(1)`, `RECV B, bb
0f` and the pseudo-operations stand in none. R89: ROUNDTRIP of P4's message is its ENCODE and the DECODE of P4; PROCESS
of that query is the DECODE, the BUILD_REPLY, and ENCODE of that reply. The reading of the text (spacing, number bases,
PROCESS computed when assembled) is the model's, assumption 11. -/
def Obligations.ProgramTextAssembles : Prop :=
  let assemble := Text.assemble Config.thisHardware
  let message := "header ".toList ++ Char.ofNat 123 :: "id:0x0102, flags:0x0100, qdcount:1".toList ++
    Char.ofNat 125 :: " question ".toList ++ Char.ofNat 123 ::
    "labels:[\"ab\"], qtype:1, qclass:1".toList ++ [Char.ofNat 125]
  let operand : Bytes := [0x01, 0x02, 0x01, 0x00, 0x00, 0x01, 0x00, 0x00, 0x00, 0x00, 0x00, 0x00, 0x00, 0x01, 0x00, 0x01,
    0x02, 0x61, 0x62, 0x00, 0x01, 0x00, 0x01]
  let query := "01 02 01 00 00 01 00 00 00 00 00 00 02 61 62 00 00 01 00 01".toList
  let decode : Bytes := [0x01, 0x00, 0x14, 0x01, 0x02, 0x01, 0x00, 0x00, 0x01, 0x00, 0x00, 0x00, 0x00, 0x00, 0x00, 0x02,
    0x61, 0x62, 0x00, 0x00, 0x01, 0x00, 0x01]
  assemble [] ["BIND ok ; start".toList, "RECV_FAIL".toList, "STOP".toList] = some [0x10, 0x00, 0x12, 0x30] ∧
  assemble [] ["BIND fail(1)".toList, "HANDLE h1".toList] = some [0x10, 0x01, 0x01, 0x20, 0x00, 0x01] ∧
  assemble [] ["SEND h0, ok".toList, "SEND h0, short(5)".toList, "SEND h1, error".toList] =
    some [0x21, 0x00, 0x00, 0x00, 0x21, 0x00, 0x00, 0x01, 0x00, 0x05, 0x21, 0x00, 0x01, 0x02] ∧
  assemble ["A".toList, "B".toList] ["RECV B, bb 0f".toList] = some [0x11, 0x01, 0x00, 0x02, 0xbb, 0x0f] ∧
  assemble [] ["ENCODE ".toList ++ message] = some (0x02 :: operand) ∧
  assemble [] ["DECODE ".toList ++ query] = some decode ∧
  assemble [] ["BUILD_REPLY ".toList ++ message] = some (0x03 :: operand) ∧
  assemble [] ["ROUNDTRIP ".toList ++ message] = some (0x02 :: operand ++ decode) ∧
  assemble [] ["PROCESS ".toList ++ query] =
    some (decode ++ 0x03 :: operand ++
      [0x02, 0x01, 0x02, 0x81, 0x03, 0x00, 0x01, 0x00, 0x00, 0x00, 0x00, 0x00, 0x00, 0x00, 0x01, 0x00, 0x01, 0x02,
        0x61, 0x62, 0x00, 0x01, 0x00, 0x01])

/-- R84, R85, R186: under a legal configuration a step takes the first operation of the agenda and is its meaning; with an
empty agenda it takes the first record off the stream and is the meaning of the operation it spells. So any operation
that has its step may be taken next, by any agent, with any id and any peer (assumptions 5 and 19). -/
def Obligations.StepRunsFirstRecord : Prop :=
  ∀ (s : State) (i : Instr), s.cfg.legal = true →
    (∀ rest, s.agenda = i :: rest → step s = exec i { s with agenda := rest }) ∧
    (∀ rest, s.agenda = [] → decodeRecord s.stream = .ok (i, rest) → step s = exec i { s with stream := rest }) ∧
    ∀ t, s.agenda = [] → Takes i s t → Turn s t

/-- 42_dispatcher.md R164: with nothing delivered and nothing to come the machine waits, and nothing changes but the
model's own verdict (assumption 6: the wait is a turn that changes nothing). -/
def Obligations.EmptyStreamWaits : Prop :=
  ∀ s : State, s.cfg.legal = true → s.agenda = [] → s.stream = [] → step s = .next { s with verdict := .waits }

/-- R87, clause by clause: an operation byte not in R85; a record whose operands run past the end of the stream; a BIND
failure with code 0; a SEND outcome byte above 0x02; a peer index outside the peer list, in a record and in any RECV. The
stream is looked at when the agenda is empty (assumption 5). -/
def Obligations.UnspelledRecordsAreRefused : Prop :=
  ∀ s : State, s.cfg.legal = true → s.agenda = [] →
    (∀ code rest, s.stream = code :: rest →
      code ∉ [0x01#8, 0x02#8, 0x03#8, 0x10#8, 0x11#8, 0x12#8, 0x20#8, 0x21#8, 0x30#8] →
      step s = .refused (.badRecord (.unassignedCode code))) ∧
    (∀ i more, i.wf = true → s.stream ≠ [] → more ≠ [] → s.stream ++ more = encodeRecord i →
      step s = .refused (.badRecord .truncated)) ∧
    (∀ rest, s.stream = 0x10#8 :: 0x01#8 :: 0x00#8 :: rest → step s = .refused (.badRecord .zeroExitCode)) ∧
    (∀ h1 h2 o rest, s.stream = 0x21#8 :: h1 :: h2 :: o :: rest → 0x02#8 < o →
      step s = .refused (.badRecord (.badOutcome o))) ∧
    (∀ peer payload rest, decodeRecord s.stream = .ok (.recv peer payload, rest) → s.peers.length ≤ peer →
      step s = .refused (.peerOutsideList peer)) ∧
    (∀ peer payload, s.peers.length ≤ peer → exec (.recv peer payload) s = .refused (.peerOutsideList peer))

/-- R33, R151, R232: a configuration with `ForwardToUpstream` or an in-flight limit of 0 is refused as a whole: no step
and no operation runs under it, and any other configuration is legal. -/
def Obligations.IllegalConfigurationIsRefused : Prop :=
  ∀ s : State,
    (s.cfg.policy = .forwardToUpstream ∨ s.cfg.inflightLimit = some 0 →
      step s = .refused .illegalConfig ∧ ∀ i, exec i s = .refused .illegalConfig) ∧
    (s.cfg.policy = .stubNameError → s.cfg.inflightLimit ≠ some 0 → s.cfg.legal = true)

/-! ## The codec -/

/-- R100, R31, R84, R202: the DECODE command gives its result on the port and changes nothing else. With `Ok` the port
holds the message and STATUS 0; with MalformedMessage no output and STATUS 1. -/
def Obligations.DecodeCommandGivesResult : Prop :=
  ∀ (s : State) (input : Bytes), s.cfg.legal = true → s.phase ≠ .terminated →
    exec (.decode input) s = .next { s with
      verdict := .moved
      port :=
        { cmd := some 0x01#8
          inp := some (.bytes input)
          out := match decodeMessage input with
            | .ok m => some (.message m)
            | .err _ => none
          status := match decodeMessage input with
            | .ok _ => some 0#1
            | .err _ => some 1#1 } }

/-- R120, R31, R84: the ENCODE command gives the message's bytes with STATUS 0 on the port and changes nothing else; the
bytes are the header fields big-endian, then for each question its length-prefixed labels, 0x00, qtype and qclass. -/
def Obligations.EncodeCommandGivesBytes : Prop :=
  ∀ (s : State) (m : Message), s.cfg.legal = true → s.phase ≠ .terminated →
    exec (.encode m) s = .next { s with
      verdict := .moved
      port :=
        { cmd := some 0x02#8
          inp := some (.message m)
          out := some (.bytes (
            [m.header.id, m.header.flags, m.header.qdcount,
              m.header.ancount, m.header.nscount, m.header.arcount].flatMap bytes16 ++
            m.questions.flatMap fun q =>
              (q.labels.flatMap fun l => BitVec.ofNat 8 l.bytes.length :: l.bytes) ++
                [0x00#8] ++ bytes16 q.qtype ++ bytes16 q.qclass))
          status := some 0#1 } }

/-- R140, R31, R84: the BUILD_REPLY command gives the name-error reply with STATUS 0 on the port and changes nothing
else. With the filter on `kept` is the number of kept questions wherever a u16 can be that number; above it the spec
states no count, and `kept` is a free value (assumption 12). -/
def Obligations.BuildReplyCommandGivesReply : Prop :=
  ∀ (s : State) (q : Message), s.cfg.legal = true → s.phase ≠ .terminated →
    ∃ kept : U16,
      ((q.questions.filter fun x => x.qclass = 1#16 ∨ x.qclass = 255#16).length < 65536 →
        kept.toNat = (q.questions.filter fun x => x.qclass = 1#16 ∨ x.qclass = 255#16).length) ∧
      exec (.buildReply q) s = .next { s with
        verdict := .moved
        port :=
          { cmd := some 0x03#8
            inp := some (.message q)
            out := some (.message
              { header :=
                  { id := q.header.id
                    flags := 0x8000#16 ||| (q.header.flags &&& 0x0100#16) ||| 0x0003#16
                    qdcount := if s.cfg.classFilter then kept else q.header.qdcount
                    ancount := 0#16
                    nscount := 0#16
                    arcount := 0#16 }
                questions :=
                  if s.cfg.classFilter then
                    q.questions.filter fun x => x.qclass = 1#16 ∨ x.qclass = 255#16
                  else q.questions })
            status := some 0#1 } }

/-- R12, R52: big-endian assembly and its inverse, for every byte and every field. -/
def Obligations.FieldsAreBigEndian : Prop :=
  (∀ hi lo : Byte, (be16 hi lo).toNat = hi.toNat * 256 + lo.toNat ∧ bytes16 (be16 hi lo) = [hi, lo]) ∧
  ∀ v : U16, ∃ hi lo, bytes16 v = [hi, lo] ∧ hi.toNat = v.toNat / 256 ∧ lo.toNat = v.toNat % 256 ∧ be16 hi lo = v

/-- 40_codec.md R100, R115, R130, R131 together: DECODE returns `m` exactly where the input begins with ENCODE(m) and `m`
is a message the wire can carry. -/
def Obligations.DecodeAcceptsExactlyEncodings : Prop :=
  ∀ (b : Bytes) (m : Message), decodeMessage b = .ok m ↔ m.OnWire ∧ encodeMessage m <+: b

/-- R130: for every message whose labels have length 1 to 255 (so for 1 to 63 too) and whose `qdcount` is the number of
its questions, DECODE(ENCODE(m)) = Ok(m). -/
def Obligations.RoundTripRestoresMessage : Prop :=
  ∀ m : Message,
    (∀ q ∈ m.questions, ∀ l ∈ q.labels, 1 ≤ l.bytes.length ∧ l.bytes.length ≤ 255) →
    m.header.qdcount.toNat = m.questions.length →
    decodeMessage (encodeMessage m) = .ok m

/-- R131: ENCODE of a decoded message is the consumed prefix of the input; the cursor never passes the input's end. -/
def Obligations.EncodeGivesConsumedPrefix : Prop :=
  ∀ (b : Bytes) (m : Message), decodeMessage b = .ok m →
    ∃ consumed, decodeAt b = .ok (m, consumed) ∧ consumed ≤ b.length ∧ encodeMessage m = b.take consumed

/-- R115: a decoded message has as many questions as its `qdcount` says, and every label has length 1 to 255. -/
def Obligations.DecodedMessagesAreCounted : Prop :=
  ∀ (b : Bytes) (m : Message), decodeMessage b = .ok m →
    m.questions.length = m.header.qdcount.toNat ∧
    ∀ q ∈ m.questions, ∀ l ∈ q.labels, 1 ≤ l.bytes.length ∧ l.bytes.length ≤ 255

/-- R103, R71: every header field of a decoded message is the big-endian value of its two bytes, all 16 bits of it. -/
def Obligations.HeaderFieldsAreKept : Prop :=
  ∀ (b : Bytes) (m : Message), decodeMessage b = .ok m →
    b.length ≥ 12 ∧
    [m.header.id, m.header.flags, m.header.qdcount, m.header.ancount, m.header.nscount, m.header.arcount].map
        BitVec.toNat =
      [0, 2, 4, 6, 8, 10].map fun i => (b.getD i 0#8).toNat * 256 + (b.getD (i + 1) 0#8).toNat

/-- 30_encoding.md R81: every byte string either decodes or raises MalformedMessage, and that has one cause, a read past
the end: some longer input that begins with the same bytes does decode. -/
def Obligations.DecodeFailsOnlyByUnderrun : Prop :=
  ∀ b : Bytes,
    ((∃ m, decodeMessage b = .ok m) ∨ decodeMessage b = .err .malformedMessage) ∧
    (decodeMessage b = .err .malformedMessage → ∃ more m, decodeMessage (b ++ more) = .ok m)

/-- R102, R134: fewer than 12 bytes are malformed. R107, R108, R109: so is an input in which, after a header that counts
more questions than the well-formed ones that follow it, the next question's labels are followed by a length byte that
claims more bytes than remain, by a terminator and fewer than 4 bytes, or by the end of the input (with no labels, the
missing question of R110). -/
def Obligations.ShortInputsAreMalformed : Prop :=
  (∀ b : Bytes, b.length < 12 → decodeMessage b = .err .malformedMessage) ∧
  ∀ (h : Header) (qs : List Question) (labels : List Label) (tail : Bytes),
    (∀ q ∈ qs, q.OnWire) → qs.length < h.qdcount.toNat → (∀ l ∈ labels, 1 ≤ l.bytes.length) →
    (∀ n : Byte, tail.length < n.toNat →
      decodeMessage (headerBytes h ++ qs.flatMap encodeQuestion ++ labels.flatMap labelRecord ++ n :: tail) =
        .err .malformedMessage) ∧
    (tail.length < 4 →
      decodeMessage (headerBytes h ++ qs.flatMap encodeQuestion ++ labels.flatMap labelRecord ++ 0x00#8 :: tail) =
        .err .malformedMessage) ∧
    decodeMessage (headerBytes h ++ qs.flatMap encodeQuestion ++ labels.flatMap labelRecord) = .err .malformedMessage

/-- R111: bytes after the last question do not change what DECODE returns. -/
def Obligations.TrailingBytesAreIgnored : Prop :=
  ∀ (b more : Bytes) (m : Message) (consumed : Nat),
    decodeAt b = .ok (m, consumed) → decodeAt (b.take consumed ++ more) = .ok (m, consumed)

/-- R124: the length of an encoding, 12 bytes for a message without questions. -/
def Obligations.EncodedLengthIsCounted : Prop :=
  ∀ m : Message,
    (encodeMessage m).length =
      12 + (m.questions.map fun q => (q.labels.map fun l => 1 + l.bytes.length).sum + 1 + 4).sum

/-- R123: ENCODE writes the header as it is held, then every question of the list, whatever `qdcount` says. With labels
the wire can carry, DECODE of the output reads `qdcount` questions: the first ones where there are enough,
MalformedMessage where there are too few. -/
def Obligations.WrongCountsAreWrittenVerbatim : Prop :=
  ∀ m : Message,
    encodeMessage m =
      [m.header.id, m.header.flags, m.header.qdcount,
        m.header.ancount, m.header.nscount, m.header.arcount].flatMap bytes16 ++
      m.questions.flatMap encodeQuestion ∧
    ((∀ q ∈ m.questions, q.OnWire) →
      decodeMessage (encodeMessage m) =
        if m.header.qdcount.toNat ≤ m.questions.length then
          .ok { m with questions := m.questions.take m.header.qdcount.toNat }
        else .err .malformedMessage)

/-- R121: a label of length 0 is written as the byte 0x00 alone, and no message with such a label comes back. -/
def Obligations.EmptyLabelsDoNotComeBack : Prop :=
  ∀ m : Message, (∃ q ∈ m.questions, ∃ l ∈ q.labels, l.bytes = []) →
    (∀ l : Label, l.bytes = [] → labelRecord l = [0x00#8]) ∧ decodeMessage (encodeMessage m) ≠ .ok m

/-! ## The policy -/

/-- R141, R142, R143, R147: the header of a reply, under either setting of the filter. QR is bit 15, RD bit 8 and RCODE
bits 3:0 (R26). -/
def Obligations.ReplyHeaderIsNameError : Prop :=
  ∀ (cfg : Config) (q : Message),
    (buildReply cfg q).header.id = q.header.id ∧
    flagQR (buildReply cfg q).header.flags = true ∧
    flagRcode (buildReply cfg q).header.flags = ResponseCode.nameError.value ∧
    flagRD (buildReply cfg q).header.flags = flagRD q.header.flags ∧
    (buildReply cfg q).header.ancount = 0#16 ∧
    (buildReply cfg q).header.nscount = 0#16 ∧
    (buildReply cfg q).header.arcount = 0#16

/-- R144: flags bits 14:9 and 7:4 of a reply are 0, whatever the query held. The spec's own decision (92 D5;
assumption 14): "Every reply flags bit other than 15, 8 and 3:0 (bits 14:9 and 7:4) is 0". -/
def Obligations.ReplyClearsUnnamedFlags : Prop :=
  ∀ (cfg : Config) (q : Message) (k : Nat), (9 ≤ k ∧ k ≤ 14) ∨ (4 ≤ k ∧ k ≤ 7) →
    (buildReply cfg q).header.flags.getLsbD k = false

/-- R145: with the filter off the count and the question section are the query's. -/
def Obligations.ReplyEchoesQuestions : Prop :=
  ∀ (cfg : Config) (q : Message), cfg.classFilter = false →
    (buildReply cfg q).header.qdcount = q.header.qdcount ∧ (buildReply cfg q).questions = q.questions

/-- R146: with the filter on the reply keeps, in order, exactly the questions of class 1 or 255, and counts them. The
premise is the size of every question list a datagram or a record can hold (R71, R86); above it the spec states no count
(assumption 12). -/
def Obligations.ReplyKeepsOnlyInAndAny : Prop :=
  ∀ (cfg : Config) (q : Message), cfg.classFilter = true → q.questions.length < 65536 →
    (buildReply cfg q).questions.Sublist q.questions ∧
    (∀ x : Question, (buildReply cfg q).questions.count x =
      if x.qclass = 1#16 ∨ x.qclass = 255#16 then q.questions.count x else 0) ∧
    (buildReply cfg q).header.qdcount.toNat = (buildReply cfg q).questions.length

/-- R152: with the filter off the reply on the wire is the consumed prefix of the query with bytes 2 and 3 replaced and
bytes 6 to 11 cleared. -/
def Obligations.ReplyPatchesQueryBytes : Prop :=
  ∀ (cfg : Config) (b : Bytes) (q : Message) (consumed : Nat),
    cfg.classFilter = false → decodeAt b = .ok (q, consumed) →
    encodeMessage (buildReply cfg q) =
      bytes16 q.header.id ++ bytes16 (0x8000#16 ||| (q.header.flags &&& 0x0100#16) ||| 0x0003#16) ++
        bytes16 q.header.qdcount ++ [0#8, 0#8, 0#8, 0#8, 0#8, 0#8] ++ (b.take consumed).drop 12

/-- 20_memory.md R64: a reply is no longer than the bytes DECODE consumed, so than the payload, and exactly as long with
the filter off. -/
def Obligations.ReplyIsNoLongerThanQuery : Prop :=
  ∀ (cfg : Config) (b : Bytes) (q : Message) (consumed : Nat),
    decodeAt b = .ok (q, consumed) →
    ∃ reply, process cfg b = .ok reply ∧ reply.length ≤ consumed ∧ consumed ≤ b.length ∧
      (cfg.classFilter = false → reply.length = consumed)

/-- R89: the commands PROCESS and ROUNDTRIP expand into all run, and the last leaves the pseudo-operation's result on the
port. -/
def Obligations.PseudoOperationsExpandToCommands : Prop :=
  ∀ s : State, s.cfg.legal = true → s.phase ≠ .terminated →
    (∀ payload, ∃ t, execAll (expandProcess s.cfg payload) s = .next t ∧
      t.port.out = match process s.cfg payload with
        | .ok reply => some (.bytes reply)
        | .err _ => none) ∧
    ∀ m, ∃ t, execAll (expandRoundTrip m) s = .next t ∧
      t.port.out = match decodeMessage (encodeMessage m) with
        | .ok m' => some (.message m')
        | .err _ => none

/-! ## The dispatcher steps -/

/-- R160, Success: BIND from Boot binds the configured address and starts the receive loop; nothing else changes. -/
def Obligations.BindSuccessStartsLoop : Prop :=
  ∀ s : State, s.cfg.legal = true → s.phase = .boot → s.sock = .unbound →
    exec (.bind .success) s = .next { s with
      sock := .bound s.cfg.bindHost s.cfg.port
      phase := .running
      trace := s.trace ++ [.bound]
      verdict := .moved }

/-- R160, R203, Failure(code): the process ends with that exit status; nothing else changes. -/
def Obligations.BindFailureEndsProcess : Prop :=
  ∀ (s : State) (code : Nat), s.cfg.legal = true → s.phase = .boot → s.sock = .unbound → code ≠ 0 →
    ∃ t, exec (.bind (.failure code)) s = .next t ∧
      t.quiet = State.quiet { s with
        phase := .terminated
        exit := some code
        trace := s.trace ++ [.fatal code]
        verdict := .moved }

/-- R163, R57, R165: RECV in Running, below the in-flight limit, spawns a Ready handler with the next id, the sender and
exactly the bytes delivered, whatever they are; every other handler and every other field is as before. -/
def Obligations.RecvSpawnsHandler : Prop :=
  ∀ (s : State) (peer : Nat) (a : Addr) (d : Bytes),
    s.cfg.legal = true → s.phase = .running → s.peers[peer]? = some a → d.length ≤ s.cfg.rxMax →
    (∀ k, s.cfg.inflightLimit = some k → s.handlers.length < k) →
    ∃ t, exec (.recv peer d) s = .next t ∧
      t.handlers.get? s.nextId = some { peer := a, payload := d, stage := .ready } ∧
      (∀ k, k ≠ s.nextId → t.handlers.get? k = s.handlers.get? k) ∧
      t.quiet = State.quiet { s with
        handlers := t.handlers
        nextId := s.nextId + 1
        trace := s.trace ++ [.rx s.nextId a d]
        staging := d
        verdict := .moved }

/-- R166: RECV over the in-flight limit records `Reject`, spawns nothing and gives out no id; with no limit RECV always
spawns (an `Rx` is recorded). -/
def Obligations.RecvOverLimitRejects : Prop :=
  ∀ (s : State) (peer : Nat) (a : Addr) (d : Bytes),
    s.cfg.legal = true → s.phase = .running → s.peers[peer]? = some a → d.length ≤ s.cfg.rxMax →
    ∃ t, exec (.recv peer d) s = .next t ∧
      (∀ k, s.cfg.inflightLimit = some k → k ≤ s.handlers.length →
        t.quiet = State.quiet { s with
          trace := s.trace ++ [.reject a d]
          staging := d
          verdict := .moved }) ∧
      (s.cfg.inflightLimit = none → t.trace = s.trace ++ [.rx s.nextId a d] ∧ t.nextId = s.nextId + 1)

/-- R167, R204: RECV_FAIL records `RxFail`; the loop goes on and nothing else changes. -/
def Obligations.ReceiveFailureGoesOn : Prop :=
  ∀ s : State, s.cfg.legal = true → s.phase = .running →
    ∃ t, exec .recvFail s = .next t ∧
      t.quiet = State.quiet { s with trace := s.trace ++ [.rxFail], verdict := .moved }

/-- R170, `Ok`: HANDLE of a Ready handler whose payload decodes makes its reply pending; its peer and payload, every
other handler, the trace and everything else are as before. -/
def Obligations.HandleMakesReplyPending : Prop :=
  ∀ (s : State) (h : Nat) (r : Handler) (q : Message),
    s.cfg.legal = true → s.phase = .running → s.handlers.get? h = some r → r.stage = .ready →
    decodeMessage r.payload = .ok q →
    ∃ t, exec (.handle h) s = .next t ∧
      t.handlers.get? h = some { r with stage := .pending (encodeMessage (buildReply s.cfg q)) } ∧
      (∀ k, k ≠ h → t.handlers.get? k = s.handlers.get? k) ∧
      t.quiet = State.quiet { s with handlers := t.handlers, verdict := .moved }

/-- R170, R172, R202, `Err`: HANDLE of a Ready handler whose payload is malformed removes it and records `Drop`; no reply
is made, and every other handler and everything else are as before. -/
def Obligations.HandleDropsMalformed : Prop :=
  ∀ (s : State) (h : Nat) (r : Handler),
    s.cfg.legal = true → s.phase = .running → s.handlers.get? h = some r → r.stage = .ready →
    decodeMessage r.payload = .err .malformedMessage →
    ∃ t, exec (.handle h) s = .next t ∧
      t.handlers.get? h = none ∧
      (∀ k, k ≠ h → t.handlers.get? k = s.handlers.get? k) ∧
      t.quiet = State.quiet { s with
        handlers := t.handlers
        trace := s.trace ++ [.drop h]
        verdict := .moved }

/-- R175, R176, R177, R205: SEND writes the pending bytes once to the captured peer, with the outcome beside them, and
the handler is gone, whatever the outcome; every other handler and everything else are as before, and no second SEND
and no HANDLE of it has a step. -/
def Obligations.SendWritesOnceAndEndsHandler : Prop :=
  ∀ (s : State) (h : Nat) (r : Handler) (bytes : Bytes) (o : WriteOutcome),
    s.cfg.legal = true → s.phase = .running → s.handlers.get? h = some r → r.stage = .pending bytes →
    (∀ n, o = .short n → n < bytes.length) →
    ∃ t, exec (.send h o) s = .next t ∧
      t.handlers.get? h = none ∧
      (∀ k, k ≠ h → t.handlers.get? k = s.handlers.get? k) ∧
      t.quiet = State.quiet { s with
        handlers := t.handlers
        trace := s.trace ++ [.tx h r.peer bytes o]
        verdict := .moved } ∧
      ∀ i, HandlerOp h i → HasNoStep i t

/-- R182: STOP ends the process from Boot or Running and records `Stopped`; the handlers are left as they are, nothing
else changes, and none of them steps again. In Terminated it has no step. -/
def Obligations.StopEndsProcess : Prop :=
  ∀ s : State, s.cfg.legal = true →
    (s.phase ≠ .terminated →
      exec .stop s = .next { s with phase := .terminated, trace := s.trace ++ [.stopped], verdict := .moved } ∧
      ∀ h i, HandlerOp h i →
        HasNoStep i { s with phase := .terminated, trace := s.trace ++ [.stopped], verdict := .moved }) ∧
    (s.phase = .terminated → HasNoStep .stop s)

/-- R162, D28: in a phase other than Running no RECV, RECV_FAIL, HANDLE or SEND has a step, and once Terminated no
operation has one. R160: an answer `Failure(0)` to BIND is none the host can give, in any phase; that it gives no step is
assumption 9. That the codec commands run in Boot is read from 95_test_vectors.md P4 (assumption 7). A RECV whose
peer index is outside the peer list is refused in any phase (R87). -/
def Obligations.NoStepOutsideRunning : Prop :=
  ∀ s : State, s.cfg.legal = true → s.phase ≠ .running →
    (∀ peer d, peer < s.peers.length → HasNoStep (.recv peer d) s) ∧
    HasNoStep .recvFail s ∧
    HasNoStep (.bind (.failure 0)) s ∧
    (∀ h i, HandlerOp h i → HasNoStep i s) ∧
    (s.phase = .terminated →
      (∀ answer, HasNoStep (.bind answer) s) ∧ HasNoStep .stop s ∧ ∀ i, CodecOp i → HasNoStep i s)

/-- R160, R163, R170, R175: the remaining preconditions, in Running. A second BIND; a delivery over `P_RX_MAX`; HANDLE of
a handler that is absent or Pending; SEND of one that is absent or Ready; an outcome `Short(n)` with `n` not below the
length of the write. That the two operand bounds give no step is assumption 9. -/
def Obligations.NoStepWithoutPrecondition : Prop :=
  ∀ s : State, s.cfg.legal = true → s.phase = .running →
    (∀ answer, HasNoStep (.bind answer) s) ∧
    (∀ peer d, peer < s.peers.length → s.cfg.rxMax < d.length → HasNoStep (.recv peer d) s) ∧
    ∀ h : Nat,
      (s.handlers.get? h = none → ∀ i, HandlerOp h i → HasNoStep i s) ∧
      ∀ r, s.handlers.get? h = some r →
        (r.stage = .ready → ∀ o, HasNoStep (.send h o) s) ∧
        ∀ bytes, r.stage = .pending bytes →
          HasNoStep (.handle h) s ∧ ∀ n, bytes.length ≤ n → HasNoStep (.send h (.short n)) s

/-! ## The machine -/

/-- R43, R230: the values after reset that the spec gives; the configuration's OPEN fields and the model's own fields are
not in it. -/
def Obligations.ResetValues : Prop :=
  State.reset.phase = .boot ∧ State.reset.sock = .unbound ∧ State.reset.handlers = [] ∧ State.reset.nextId = 0 ∧
  State.reset.trace = [] ∧ State.reset.diag = [] ∧ State.reset.exit = none ∧
  State.reset.port = { cmd := none, inp := none, out := none, status := none } ∧
  State.reset.cfg.port = 3030#16 ∧ State.reset.cfg.classFilter = false ∧
  State.reset.cfg.inflightLimit = none ∧ State.reset.cfg.policy = .stubNameError

/-- R32: no step and no operation writes the configuration. -/
def Obligations.ConfigurationNeverChanges : Prop :=
  ∀ s t : State, (step s = .next t ∨ ∃ i, exec i s = .next t) → t.cfg = s.cfg

/-- R38: the trace is append-only, and a step adds at most one event. -/
def Obligations.TraceIsAppendOnly : Prop :=
  ∀ s t : State, step s = .next t → t.trace = s.trace ∨ ∃ e, t.trace = s.trace ++ [e]

/-- R34: `phase` is Boot after reset; BIND's answer sets it to Running or Terminated; STOP sets it to Terminated from any
phase; Terminated is final; and no other operation changes it. BIND has its step with the socket unbound, and a failure's
code is not 0 (R160). -/
def Obligations.PhaseFollowsBindAndStop : Prop :=
  State.reset.phase = .boot ∧
  ∀ (s u t : State) (i : Instr), s.fetch = .ok (some (i, u)) → step s = .next t →
    (s.phase = .boot → s.sock = .unbound →
      (i = .bind .success → t.phase = .running) ∧
      ∀ code, code ≠ 0 → i = .bind (.failure code) → t.phase = .terminated) ∧
    (i = .stop → t.phase = .terminated) ∧
    (s.phase = .terminated → t.phase = .terminated) ∧
    (i ≠ .stop → ¬ (s.phase = .boot ∧ ∃ answer, i = .bind answer) → t.phase = s.phase)

/-- R34, R162: `phase` leaves Boot only for Running or Terminated, Running only for Terminated, and Terminated never; a step in
Terminated leaves trace and handlers as they are. -/
def Obligations.PhaseOnlyMovesForward : Prop :=
  ∀ s t : State, step s = .next t →
    (s.phase = .running → t.phase ≠ .boot) ∧
    (s.phase = .terminated → t.phase = .terminated ∧ t.trace = s.trace ∧ t.handlers = s.handlers)

/-- R183: only STOP and a failed BIND end the process. -/
def Obligations.OnlyStopAndFailedBindTerminate : Prop :=
  ∀ s t : State, step s = .next t → s.phase ≠ .terminated → t.phase = .terminated →
    ∃ i u, s.fetch = .ok (some (i, u)) ∧ (i = .stop ∨ ∃ code, i = .bind (.failure code))

/-- R37: `nextId` grows by 1 at each RECV that spawns a handler and changes at no other step. -/
def Obligations.NextIdCountsSpawns : Prop :=
  ∀ s t : State, step s = .next t →
    (t.nextId = s.nextId ∧ ∀ a d, t.trace ≠ s.trace ++ [.rx s.nextId a d]) ∨
    (t.nextId = s.nextId + 1 ∧ ∃ a d, t.trace = s.trace ++ [.rx s.nextId a d] ∧
      t.handlers.get? s.nextId = some { peer := a, payload := d, stage := .ready })

/-- R84, R31: a dispatcher step leaves the codec port as it was (the model's reading, assumption 7), and a codec command
leaves everything else as it was. -/
def Obligations.CommandsAndStepsAreApart : Prop :=
  ∀ (s t : State) (i : Instr), exec i s = .next t →
    (CodecOp i → t = { s with port := t.port, verdict := t.verdict }) ∧ (¬ CodecOp i → t.port = s.port)

/-- R36, R58, R188: a step changes no live handler's peer or payload, and changes or removes a handler only where it is
that handler's own HANDLE or SEND. -/
def Obligations.HandlersAreIsolated : Prop :=
  ∀ (s t : State) (h : Nat) (r : Handler), TableInv s → step s = .next t → s.handlers.get? h = some r →
    t.handlers.get? h = some r ∨
    ∃ i u, s.fetch = .ok (some (i, u)) ∧ HandlerOp h i ∧
      ∀ r', t.handlers.get? h = some r' → r'.peer = r.peer ∧ r'.payload = r.payload

/-- R188: the reply HANDLE makes depends on the handler's own payload and the configuration only. Two states that agree
on these, and differ in anything else, give the same reply bytes or drop the datagram together. -/
def Obligations.ReplyDependsOnPayloadOnly : Prop :=
  ∀ (s s' t t' : State) (h h' : Nat) (r r' : Handler),
    s.cfg = s'.cfg → s.handlers.get? h = some r → s'.handlers.get? h' = some r' →
    r.payload = r'.payload → Takes (.handle h) s t → Takes (.handle h') s' t' →
    (t.handlers.get? h).map Handler.stage = (t'.handlers.get? h').map Handler.stage

/-- R186, R58, R59: the steps of two different handlers may be taken in either order. Both orders go through, and they
reach the same state but for the order of the two events. -/
def Obligations.HandlerStepsCommute : Prop :=
  ∀ (s a b : State) (h k : Nat) (i j : Instr),
    s.handlers.wf → h ≠ k → HandlerOp h i → HandlerOp k j → Takes i s a → Takes j s b →
    ∃ ab ba, Takes j a ab ∧ Takes i b ba ∧
      State.quiet { ab with trace := [] } = State.quiet { ba with trace := [] } ∧ ab.trace.Perm ba.trace

/-- R34–R37, R63, R64, R189: the invariants hold after reset, with any configuration, operations to come and peer list
(assumption 19). -/
def Obligations.StartsMeetInvariants : Prop :=
  ∀ s : State, Starts s → TableInv s ∧ PhaseInv s ∧ SizeInv s ∧ FlowInv s

/-- R36, R37: every step keeps the handler table canonical and its ids below `nextId`. -/
def Obligations.StepKeepsTableInv : Prop :=
  ∀ s t : State, TableInv s → step s = .next t → TableInv t

/-- R34, R35, R40: every step keeps phase, socket and exit status together. -/
def Obligations.StepKeepsPhaseInv : Prop :=
  ∀ s t : State, PhaseInv s → step s = .next t → PhaseInv t

/-- R63, R64: every step keeps payloads within `P_RX_MAX` and pending replies within their payloads. -/
def Obligations.StepKeepsSizeInv : Prop :=
  ∀ s t : State, SizeInv s → step s = .next t → SizeInv t

/-- R189, R176, R177, R59: every step keeps the flow invariant, from every state that meets it. -/
def Obligations.StepKeepsFlowInv : Prop :=
  ∀ s t : State, FlowInv s → step s = .next t → FlowInv t

/-- R189: the per-flow law holds of every state of every run, whatever the host and the scheduler do. -/
def Obligations.RunsKeepPerFlowLaw : Prop :=
  ∀ s : State, Reachable s → PerFlowLaw s

/-- R207, R149, R236: whatever the run, every datagram the block writes is a name-error reply to a datagram received from
that peer: it begins with that datagram's transaction id, its flags are 0x8003 or 0x8103, and its answer, authority and
additional counts are 0. -/
def Obligations.EveryWriteIsNameErrorReply : Prop :=
  ∀ (s : State) (h : Nat) (a : Addr) (b : Bytes) (o : WriteOutcome), Reachable s → .tx h a b o ∈ s.trace →
    ∃ d, .rx h a d ∈ s.trace ∧ b.take 2 = d.take 2 ∧
      ((b.drop 2).take 2 = [0x80#8, 0x03#8] ∨ (b.drop 2).take 2 = [0x81#8, 0x03#8]) ∧
      (b.drop 6).take 6 = [0#8, 0#8, 0#8, 0#8, 0#8, 0#8]

/-- R187, R176: in a weakly fair run every live handler is eventually gone, unless the run terminates. -/
def Obligations.FairRunsEndEveryHandler : Prop :=
  ∀ (state : Nat → State) (n h : Nat) (r : Handler), Run state → Fair state →
    (state n).handlers.get? h = some r →
    ∃ m, n ≤ m ∧ ((state m).phase = .terminated ∨ (state m).handlers.get? h = none)
end

