-- ==== Sys2Proof/Laws/Result.lean ====
section
/-! SUPPORT. How results compose: the values and the errors of bind and map. -/

namespace Sys2Proof.Result

variable {ε α β : Type}

@[simp] theorem bind_ok (v : α) (f : α → Result ε β) : (Result.ok v).bind f = f v := rfl
@[simp] theorem bind_err (e : ε) (f : α → Result ε β) : (Result.err e : Result ε α).bind f = .err e := rfl
@[simp] theorem map_ok (f : α → β) (v : α) : (Result.ok v : Result ε α).map f = .ok (f v) := rfl
@[simp] theorem map_err (f : α → β) (e : ε) : (Result.err e : Result ε α).map f = .err e := rfl

theorem bind_eq_ok_iff {r : Result ε α} {f : α → Result ε β} {v : β} :
    r.bind f = .ok v ↔ ∃ x, r = .ok x ∧ f x = .ok v := by
  cases r <;> simp

theorem map_eq_ok_iff {r : Result ε α} {f : α → β} {v : β} :
    r.map f = .ok v ↔ ∃ x, r = .ok x ∧ f x = v := by
  cases r <;> simp

theorem bind_eq_err_iff {r : Result ε α} {f : α → Result ε β} {e : ε} :
    r.bind f = .err e ↔ r = .err e ∨ ∃ x, r = .ok x ∧ f x = .err e := by
  cases r <;> simp

theorem map_eq_err_iff {r : Result ε α} {f : α → β} {e : ε} : r.map f = .err e ↔ r = .err e := by
  cases r <;> simp

end Sys2Proof.Result
end

