-- ==== Sys2Proof/Laws/Word.lean ====
section
/-! SUPPORT. Big-endian assembly and byte lists. -/

namespace Sys2Proof

theorem be16_toNat (hi lo : Byte) : (be16 hi lo).toNat = hi.toNat * 256 + lo.toNat := by
  have h1 := hi.isLt
  have h2 := lo.isLt
  simp only [be16, BitVec.toNat_ofNat]
  omega

@[simp] theorem bytes16_length (v : U16) : (bytes16 v).length = 2 := rfl

@[simp] theorem bytes16_be16 (hi lo : Byte) : bytes16 (be16 hi lo) = [hi, lo] := by
  have h1 := hi.isLt
  have h2 := lo.isLt
  simp only [bytes16, List.cons.injEq, and_true]
  constructor <;> apply BitVec.eq_of_toNat_eq <;>
    simp only [BitVec.extractLsb'_toNat, be16_toNat, Nat.shiftRight_eq_div_pow] <;> omega

@[simp] theorem be16_of_bytes16 (v : U16) : be16 (v.extractLsb' 8 8) (v.extractLsb' 0 8) = v := by
  have h := v.isLt
  apply BitVec.eq_of_toNat_eq
  rw [be16_toNat]
  simp only [BitVec.extractLsb'_toNat, Nat.shiftRight_eq_div_pow]
  omega

/-- A two-byte list is the big-endian field it assembles to. -/
theorem bytes16_eq_pair_iff (v : U16) (hi lo : Byte) : bytes16 v = [hi, lo] ↔ v = be16 hi lo := by
  constructor
  · intro h
    simp only [bytes16, List.cons.injEq, and_true] at h
    rw [← h.1, ← h.2, be16_of_bytes16]
  · rintro rfl
    exact bytes16_be16 hi lo

theorem byte_toNat_eq_zero_iff (b : Byte) : b.toNat = 0 ↔ b = 0#8 := by
  constructor
  · intro h
    exact BitVec.eq_of_toNat_eq (by simpa using h)
  · rintro rfl
    rfl

theorem ofNat8_toNat {n : Nat} (h : n ≤ 255) : (BitVec.ofNat 8 n).toNat = n := by
  simp only [BitVec.toNat_ofNat]
  omega

theorem ofNat16_toNat {n : Nat} (h : n < 65536) : (BitVec.ofNat 16 n).toNat = n := by
  simp only [BitVec.toNat_ofNat]
  omega

/-- One string after another begins `l` where the first begins `l` and the second begins what is left. -/
theorem append_prefix_iff {α : Type} (a b l : List α) :
    a ++ b <+: l ↔ a <+: l ∧ b <+: l.drop a.length := by
  constructor
  · rintro ⟨t, rfl⟩
    refine ⟨⟨b ++ t, by simp⟩, ⟨t, ?_⟩⟩
    rw [List.append_assoc, List.drop_left]
  · rintro ⟨⟨t, rfl⟩, h⟩
    rw [List.drop_left] at h
    exact List.prefix_append_right_inj a |>.2 h

@[simp] theorem Label.ofBytes_bytes (b : Bytes) : (Label.ofBytes b).bytes = b.take 255 := rfl

@[simp] theorem Label.ofBytes_self (l : Label) : Label.ofBytes l.bytes = l := by
  ext1
  exact List.take_of_length_le l.fits

@[simp] theorem labelRecord_length (l : Label) : (labelRecord l).length = 1 + l.bytes.length := by
  simp [labelRecord, Nat.add_comm]

@[simp] theorem headerBytes_length (h : Header) : (headerBytes h).length = 12 := rfl

end Sys2Proof
end

