-- ==== Sys2Proof/Laws/Codec.lean ====
section
/-! SUPPORT. What each read of DECODE returns: exactly the value whose encoding begins the rest of the input at the
cursor, and, if nothing does, MalformedMessage. -/

namespace Sys2Proof.Machine

open Result

/-! ## The primitives -/

theorem memRead_eq_ok_iff {input : Bytes} {pos n p : Nat} {w : Bytes} (hn : 0 < n) :
    memRead input pos n = .ok (w, p) ↔ w.length = n ∧ p = pos + n ∧ w <+: input.drop pos := by
  unfold memRead
  split_ifs with h
  · simp only [false_iff, not_and]
    rintro hw - hpre
    have := hpre.length_le
    rw [List.length_drop] at this
    omega
  · simp only [Result.ok.injEq, Prod.mk.injEq]
    constructor
    · rintro ⟨rfl, rfl⟩
      refine ⟨?_, rfl, List.take_prefix _ _⟩
      rw [List.length_take, List.length_drop]
      omega
    · rintro ⟨hw, rfl, hpre⟩
      exact ⟨by rw [← hw]; exact (List.prefix_iff_eq_take.1 hpre).symm, rfl⟩

theorem memRead_err {input : Bytes} {pos n : Nat} {e : BlockError} (h : memRead input pos n = .err e) :
    e = .malformedMessage ∧ input.length < pos + n := by
  unfold memRead at h
  split_ifs at h with hlen
  cases h
  exact ⟨rfl, hlen⟩

theorem readU8_eq_ok_iff {input : Bytes} {pos p : Nat} {b : Byte} :
    readU8 input pos = .ok (b, p) ↔ p = pos + 1 ∧ [b] <+: input.drop pos := by
  simp only [readU8, map_eq_ok_iff, Prod.exists, memRead_eq_ok_iff Nat.one_pos, Prod.mk.injEq]
  constructor
  · rintro ⟨w, q, ⟨hw, rfl, hpre⟩, rfl, rfl⟩
    obtain ⟨x, rfl⟩ := List.length_eq_one_iff.1 hw
    exact ⟨rfl, hpre⟩
  · rintro ⟨rfl, hpre⟩
    exact ⟨[b], pos + 1, ⟨rfl, rfl, hpre⟩, rfl, rfl⟩

theorem readU16_eq_ok_iff {input : Bytes} {pos p : Nat} {v : U16} :
    readU16 input pos = .ok (v, p) ↔ p = pos + 2 ∧ bytes16 v <+: input.drop pos := by
  simp only [readU16, map_eq_ok_iff, Prod.exists, memRead_eq_ok_iff Nat.two_pos, Prod.mk.injEq]
  constructor
  · rintro ⟨w, q, ⟨hw, rfl, hpre⟩, rfl, rfl⟩
    obtain ⟨x, y, rfl⟩ := List.length_eq_two.1 hw
    exact ⟨rfl, by simpa using hpre⟩
  · rintro ⟨rfl, hpre⟩
    refine ⟨bytes16 v, pos + 2, ⟨rfl, rfl, hpre⟩, ?_, rfl⟩
    simp [bytes16]

/-! ## Names, questions and headers -/

theorem encodeName_cons (l : Label) (ls : List Label) : encodeName (l :: ls) = labelRecord l ++ encodeName ls := by
  simp [encodeName]

@[simp] theorem encodeName_nil : encodeName [] = [0x00#8] := rfl

theorem encodeName_length (ls : List Label) :
    (encodeName ls).length = (ls.map fun l => 1 + l.bytes.length).sum + 1 := by
  induction ls with
  | nil => rfl
  | cons l ls ih => simp [encodeName_cons, ih, Nat.add_assoc]

theorem encodeQuestion_length (q : Question) :
    (encodeQuestion q).length = (q.labels.map fun l => 1 + l.bytes.length).sum + 1 + 4 := by
  simp [encodeQuestion, encodeName_length, Nat.add_assoc]

/-- A name read is made of labels of at least one byte, and its encoding begins the rest of the input. -/
theorem decodeName_sound {fuel : Nat} {input : Bytes} {pos p : Nat} {ls : List Label}
    (h : decodeName fuel input pos = .ok (ls, p)) :
    (∀ l ∈ ls, 1 ≤ l.bytes.length) ∧ p = pos + (encodeName ls).length ∧ encodeName ls <+: input.drop pos := by
  induction fuel generalizing pos p ls with
  | zero => simp [decodeName] at h
  | succ fuel ih =>
    simp only [decodeName, bind_eq_ok_iff, Prod.exists, readU8_eq_ok_iff] at h
    obtain ⟨n, _, ⟨rfl, hn⟩, h⟩ := h
    split_ifs at h with hz
    · simp only [Result.ok.injEq, Prod.mk.injEq] at h
      obtain ⟨rfl, rfl⟩ := h
      subst hz
      exact ⟨by simp, rfl, hn⟩
    · have hpos : 0 < n.toNat := Nat.pos_of_ne_zero (fun hc => hz ((byte_toNat_eq_zero_iff n).1 hc))
      simp only [bind_eq_ok_iff, map_eq_ok_iff, Prod.exists, memRead_eq_ok_iff hpos, Prod.mk.injEq] at h
      obtain ⟨body, _, ⟨hlen, rfl, hbody⟩, rest, q, hrest, rfl, rfl⟩ := h
      obtain ⟨hok, hq, hpre⟩ := ih hrest
      have hfit : body.length ≤ 255 := by have := n.isLt; omega
      have hbytes : (Label.ofBytes body).bytes = body := List.take_of_length_le hfit
      have hrec : labelRecord (Label.ofBytes body) = n :: body := by
        rw [labelRecord, hbytes, hlen, BitVec.ofNat_toNat, BitVec.setWidth_eq]
      refine ⟨?_, ?_, ?_⟩
      · intro l hl
        rcases List.mem_cons.1 hl with rfl | hl
        · rw [hbytes]; omega
        · exact hok l hl
      · rw [hq, encodeName_cons, hrec, List.length_append, List.length_cons]
        omega
      · rw [encodeName_cons, hrec, append_prefix_iff, ← List.singleton_append, append_prefix_iff]
        refine ⟨⟨hn, ?_⟩, ?_⟩
        · simpa [List.drop_drop] using hbody
        · simpa [List.drop_drop, hlen, Nat.add_assoc, Nat.add_comm 1] using hpre

/-- A name whose encoding begins the rest of the input is read. -/
theorem decodeName_complete {fuel : Nat} {input : Bytes} {pos : Nat} {ls : List Label}
    (hok : ∀ l ∈ ls, 1 ≤ l.bytes.length) (hpre : encodeName ls <+: input.drop pos) (hf : ls.length < fuel) :
    decodeName fuel input pos = .ok (ls, pos + (encodeName ls).length) := by
  induction ls generalizing fuel pos with
  | nil =>
    obtain ⟨fuel, rfl⟩ : ∃ f, fuel = f + 1 := ⟨fuel - 1, by simp at hf; omega⟩
    have : readU8 input pos = .ok (0x00#8, pos + 1) := readU8_eq_ok_iff.2 ⟨rfl, hpre⟩
    simp [decodeName, this]
  | cons l ls ih =>
    obtain ⟨fuel, rfl⟩ : ∃ f, fuel = f + 1 := ⟨fuel - 1, by simp at hf; omega⟩
    have hl := hok l (by simp)
    have hn : (BitVec.ofNat 8 l.bytes.length).toNat = l.bytes.length := ofNat8_toNat l.fits
    rw [encodeName_cons, labelRecord, append_prefix_iff, ← List.singleton_append, append_prefix_iff] at hpre
    obtain ⟨⟨h1, h2⟩, h3⟩ := hpre
    have hr : readU8 input pos = .ok (BitVec.ofNat 8 l.bytes.length, pos + 1) := readU8_eq_ok_iff.2 ⟨rfl, h1⟩
    have hb : memRead input (pos + 1) l.bytes.length = .ok (l.bytes, pos + 1 + l.bytes.length) :=
      (memRead_eq_ok_iff hl).2 ⟨rfl, rfl, by simpa [List.drop_drop] using h2⟩
    have hz : ¬ BitVec.ofNat 8 l.bytes.length = 0#8 := by
      intro hc
      rw [← byte_toNat_eq_zero_iff, hn] at hc
      omega
    have h3' : encodeName ls <+: input.drop (pos + 1 + l.bytes.length) := by
      simpa [List.drop_drop, Nat.add_assoc, Nat.add_comm] using h3
    have := ih (fuel := fuel) (fun l hl => hok l (by simp [hl])) h3' (by simp at hf; omega)
    simp only [decodeName, hr, bind_ok, if_neg hz, hn, hb, this, map_ok, Label.ofBytes_self]
    simp [encodeName_cons, Nat.add_assoc]

/-- DecodeQuestion returns exactly the question whose encoding begins the rest of the input. -/
theorem decodeQuestion_eq_ok_iff {input : Bytes} {pos p : Nat} {q : Question} :
    decodeQuestion input pos = .ok (q, p) ↔
      q.OnWire ∧ p = pos + (encodeQuestion q).length ∧ encodeQuestion q <+: input.drop pos := by
  simp only [decodeQuestion, bind_eq_ok_iff, map_eq_ok_iff, Prod.exists, memRead_eq_ok_iff (Nat.zero_lt_succ 3),
    Prod.mk.injEq]
  constructor
  · rintro ⟨ls, _, hname, tail, _, ⟨hlen, rfl, htail⟩, rfl, rfl⟩
    obtain ⟨hok, rfl, hpre⟩ := decodeName_sound hname
    obtain ⟨a, b, c, d, rfl⟩ : ∃ a b c d, tail = [a, b, c, d] := by
      match tail, hlen with
      | [a, b, c, d], _ => exact ⟨a, b, c, d, rfl⟩
    refine ⟨hok, by simp [encodeQuestion, Nat.add_assoc], ?_⟩
    simp only [encodeQuestion, List.append_assoc]
    rw [append_prefix_iff]
    exact ⟨hpre, by simpa [List.drop_drop] using htail⟩
  · rintro ⟨hok, rfl, hpre⟩
    simp only [encodeQuestion, List.append_assoc] at hpre
    rw [append_prefix_iff] at hpre
    have hfuel : q.labels.length < input.length + 1 := by
      have h1 := hpre.1.length_le
      have h2 : q.labels.length ≤ (encodeName q.labels).length := by
        rw [encodeName_length]
        generalize q.labels = ls
        induction ls with
        | nil => simp
        | cons l ls ih => simp at ih ⊢; omega
      rw [List.length_drop] at h1
      omega
    refine ⟨q.labels, _, decodeName_complete hok hpre.1 hfuel, bytes16 q.qtype ++ bytes16 q.qclass, _,
      ⟨rfl, rfl, by simpa [List.drop_drop] using hpre.2⟩, ?_, by simp [encodeQuestion, Nat.add_assoc]⟩
    simp [bytes16]

/-- The question loop returns exactly the `count` questions whose encodings begin the rest of the input. -/
theorem decodeQuestions_eq_ok_iff {count : Nat} {input : Bytes} {pos p : Nat} {qs : List Question} :
    decodeQuestions count input pos = .ok (qs, p) ↔
      qs.length = count ∧ (∀ q ∈ qs, q.OnWire) ∧ p = pos + (qs.flatMap encodeQuestion).length ∧
        qs.flatMap encodeQuestion <+: input.drop pos := by
  induction count generalizing pos p qs with
  | zero =>
    simp only [decodeQuestions, Result.ok.injEq, Prod.mk.injEq]
    constructor
    · rintro ⟨rfl, rfl⟩
      simp
    · rintro ⟨hl, -, hp, -⟩
      obtain rfl := List.length_eq_zero_iff.1 hl
      simpa using hp.symm
  | succ count ih =>
    simp only [decodeQuestions, bind_eq_ok_iff, map_eq_ok_iff, Prod.exists, decodeQuestion_eq_ok_iff, Prod.mk.injEq, ih]
    constructor
    · rintro ⟨q, _, ⟨hq, rfl, hpre⟩, qs, _, ⟨rfl, hqs, rfl, hpres⟩, rfl, rfl⟩
      refine ⟨by simp, by simpa using ⟨hq, hqs⟩, by simp [Nat.add_assoc], ?_⟩
      rw [List.flatMap_cons, append_prefix_iff]
      exact ⟨hpre, by simpa [List.drop_drop] using hpres⟩
    · rintro ⟨hl, hqs, rfl, hpre⟩
      obtain ⟨q, qs, rfl⟩ : ∃ q qs', qs = q :: qs' := by
        cases qs with
        | nil => simp at hl
        | cons q qs => exact ⟨q, qs, rfl⟩
      rw [List.flatMap_cons, append_prefix_iff] at hpre
      refine ⟨q, _, ⟨hqs q (by simp), rfl, hpre.1⟩, qs, _,
        ⟨by simpa using hl, fun x hx => hqs x (by simp [hx]), rfl, by simpa [List.drop_drop] using hpre.2⟩, rfl, ?_⟩
      simp [Nat.add_assoc]

/-- DecodeHeader returns exactly the header whose 12 bytes begin the input. -/
theorem decodeHeader_eq_ok_iff {input : Bytes} {h : Header} {p : Nat} :
    decodeHeader input = .ok (h, p) ↔ p = 12 ∧ headerBytes h <+: input := by
  unfold decodeHeader
  split_ifs with hlen
  · simp only [false_iff, not_and]
    rintro - hpre
    have := hpre.length_le
    simp at this
    omega
  · simp only [bind_eq_ok_iff, map_eq_ok_iff, Prod.exists, readU16_eq_ok_iff, Prod.mk.injEq, headerBytes,
      List.append_assoc]
    constructor
    · rintro ⟨id, _, ⟨rfl, h1⟩, flags, _, ⟨rfl, h2⟩, qd, _, ⟨rfl, h3⟩, an, _, ⟨rfl, h4⟩, ns, _, ⟨rfl, h5⟩, ar, _,
        ⟨rfl, h6⟩, rfl, rfl⟩
      refine ⟨rfl, ?_⟩
      rw [append_prefix_iff, append_prefix_iff, append_prefix_iff, append_prefix_iff, append_prefix_iff]
      simp only [List.drop_drop, bytes16_length]
      exact ⟨h1, h2, h3, h4, h5, h6⟩
    · rintro ⟨rfl, hpre⟩
      rw [append_prefix_iff, append_prefix_iff, append_prefix_iff, append_prefix_iff, append_prefix_iff] at hpre
      simp only [List.drop_drop, bytes16_length] at hpre
      obtain ⟨h1, h2, h3, h4, h5, h6⟩ := hpre
      exact ⟨h.id, 2, ⟨rfl, h1⟩, h.flags, 4, ⟨rfl, h2⟩, h.qdcount, 6, ⟨rfl, h3⟩, h.ancount, 8, ⟨rfl, h4⟩, h.nscount,
        10, ⟨rfl, h5⟩, h.arcount, 12, ⟨rfl, h6⟩, rfl, rfl⟩

/-! ## Errors: MalformedMessage is the only one -/

theorem readU8_err {input : Bytes} {pos : Nat} {e : BlockError} (h : readU8 input pos = .err e) :
    e = .malformedMessage :=
  (memRead_err (map_eq_err_iff.1 h)).1

theorem readU16_err {input : Bytes} {pos : Nat} {e : BlockError} (h : readU16 input pos = .err e) :
    e = .malformedMessage :=
  (memRead_err (map_eq_err_iff.1 h)).1

theorem decodeName_err {fuel : Nat} {input : Bytes} {pos : Nat} {e : BlockError}
    (h : decodeName fuel input pos = .err e) : e = .malformedMessage := by
  induction fuel generalizing pos with
  | zero => cases h; rfl
  | succ fuel ih =>
    rw [decodeName, bind_eq_err_iff] at h
    rcases h with h | ⟨x, -, h⟩
    · exact readU8_err h
    · dsimp only at h
      split_ifs at h
      rw [bind_eq_err_iff] at h
      rcases h with h | ⟨y, -, h⟩
      · exact (memRead_err h).1
      · exact ih (map_eq_err_iff.1 h)

theorem decodeQuestion_err {input : Bytes} {pos : Nat} {e : BlockError} (h : decodeQuestion input pos = .err e) :
    e = .malformedMessage := by
  rw [decodeQuestion, bind_eq_err_iff] at h
  rcases h with h | ⟨x, -, h⟩
  · exact decodeName_err h
  · exact (memRead_err (map_eq_err_iff.1 h)).1

theorem decodeQuestions_err {count : Nat} {input : Bytes} {pos : Nat} {e : BlockError}
    (h : decodeQuestions count input pos = .err e) : e = .malformedMessage := by
  induction count generalizing pos with
  | zero => cases h
  | succ count ih =>
    rw [decodeQuestions, bind_eq_err_iff] at h
    rcases h with h | ⟨x, -, h⟩
    · exact decodeQuestion_err h
    · exact ih (map_eq_err_iff.1 h)

theorem decodeHeader_err {input : Bytes} {e : BlockError} (h : decodeHeader input = .err e) :
    e = .malformedMessage := by
  unfold decodeHeader at h
  split_ifs at h
  · cases h
    rfl
  · rw [bind_eq_err_iff] at h
    rcases h with h | ⟨x, -, h⟩
    · exact readU16_err h
    rw [bind_eq_err_iff] at h
    rcases h with h | ⟨x, -, h⟩
    · exact readU16_err h
    rw [bind_eq_err_iff] at h
    rcases h with h | ⟨x, -, h⟩
    · exact readU16_err h
    rw [bind_eq_err_iff] at h
    rcases h with h | ⟨x, -, h⟩
    · exact readU16_err h
    rw [bind_eq_err_iff] at h
    rcases h with h | ⟨x, -, h⟩
    · exact readU16_err h
    · exact readU16_err (map_eq_err_iff.1 h)

/-- DECODE raises MalformedMessage and nothing else (R100, R208). -/
theorem decodeAt_err {input : Bytes} {e : BlockError} (h : decodeAt input = .err e) : e = .malformedMessage := by
  rw [decodeAt, bind_eq_err_iff] at h
  rcases h with h | ⟨x, -, h⟩
  · exact decodeHeader_err h
  · exact decodeQuestions_err (map_eq_err_iff.1 h)

theorem decodeMessage_eq_ok_iff {input : Bytes} {m : Message} :
    decodeMessage input = .ok m ↔ ∃ c, decodeAt input = .ok (m, c) := by
  simp [decodeMessage, map_eq_ok_iff, Prod.exists]

theorem decodeMessage_err {input : Bytes} {e : BlockError} (h : decodeMessage input = .err e) :
    e = .malformedMessage :=
  decodeAt_err (map_eq_err_iff.1 h)

theorem process_eq_ok_iff {cfg : Config} {b reply : Bytes} :
    process cfg b = .ok reply ↔ ∃ q, decodeMessage b = .ok q ∧ encodeMessage (buildReply cfg q) = reply := by
  simp [process, map_eq_ok_iff]

theorem process_err {cfg : Config} {b : Bytes} {e : BlockError} (h : process cfg b = .err e) :
    e = .malformedMessage ∧ decodeMessage b = .err .malformedMessage := by
  have h' := map_eq_err_iff.1 h
  have he := decodeMessage_err h'
  subst he
  exact ⟨rfl, h'⟩

end Sys2Proof.Machine
end

