-- ==== Sys2Proof/Laws/State.lean ====
section
/-! SUPPORT. One lemma per field of State and per single-field update, true by definition, so that no proof unfolds a
record update. -/

namespace Sys2Proof.Machine.State

section
variable (s : State) (p : Phase)
@[simp] theorem withPhase_cfg : (s.withPhase p).cfg = s.cfg := rfl
@[simp] theorem withPhase_phase : (s.withPhase p).phase = p := rfl
@[simp] theorem withPhase_sock : (s.withPhase p).sock = s.sock := rfl
@[simp] theorem withPhase_handlers : (s.withPhase p).handlers = s.handlers := rfl
@[simp] theorem withPhase_nextId : (s.withPhase p).nextId = s.nextId := rfl
@[simp] theorem withPhase_trace : (s.withPhase p).trace = s.trace := rfl
@[simp] theorem withPhase_diag : (s.withPhase p).diag = s.diag := rfl
@[simp] theorem withPhase_exit : (s.withPhase p).exit = s.exit := rfl
@[simp] theorem withPhase_port : (s.withPhase p).port = s.port := rfl
@[simp] theorem withPhase_staging : (s.withPhase p).staging = s.staging := rfl
@[simp] theorem withPhase_agenda : (s.withPhase p).agenda = s.agenda := rfl
@[simp] theorem withPhase_stream : (s.withPhase p).stream = s.stream := rfl
@[simp] theorem withPhase_peers : (s.withPhase p).peers = s.peers := rfl
@[simp] theorem withPhase_draws : (s.withPhase p).draws = s.draws := rfl
@[simp] theorem withPhase_verdict : (s.withPhase p).verdict = s.verdict := rfl
end

section
variable (s : State) (k : Sock)
@[simp] theorem withSock_cfg : (s.withSock k).cfg = s.cfg := rfl
@[simp] theorem withSock_phase : (s.withSock k).phase = s.phase := rfl
@[simp] theorem withSock_sock : (s.withSock k).sock = k := rfl
@[simp] theorem withSock_handlers : (s.withSock k).handlers = s.handlers := rfl
@[simp] theorem withSock_nextId : (s.withSock k).nextId = s.nextId := rfl
@[simp] theorem withSock_trace : (s.withSock k).trace = s.trace := rfl
@[simp] theorem withSock_diag : (s.withSock k).diag = s.diag := rfl
@[simp] theorem withSock_exit : (s.withSock k).exit = s.exit := rfl
@[simp] theorem withSock_port : (s.withSock k).port = s.port := rfl
@[simp] theorem withSock_staging : (s.withSock k).staging = s.staging := rfl
@[simp] theorem withSock_agenda : (s.withSock k).agenda = s.agenda := rfl
@[simp] theorem withSock_stream : (s.withSock k).stream = s.stream := rfl
@[simp] theorem withSock_peers : (s.withSock k).peers = s.peers := rfl
@[simp] theorem withSock_draws : (s.withSock k).draws = s.draws := rfl
@[simp] theorem withSock_verdict : (s.withSock k).verdict = s.verdict := rfl
end

section
variable (s : State) (t : HandlerTable)
@[simp] theorem withHandlers_cfg : (s.withHandlers t).cfg = s.cfg := rfl
@[simp] theorem withHandlers_phase : (s.withHandlers t).phase = s.phase := rfl
@[simp] theorem withHandlers_sock : (s.withHandlers t).sock = s.sock := rfl
@[simp] theorem withHandlers_handlers : (s.withHandlers t).handlers = t := rfl
@[simp] theorem withHandlers_nextId : (s.withHandlers t).nextId = s.nextId := rfl
@[simp] theorem withHandlers_trace : (s.withHandlers t).trace = s.trace := rfl
@[simp] theorem withHandlers_diag : (s.withHandlers t).diag = s.diag := rfl
@[simp] theorem withHandlers_exit : (s.withHandlers t).exit = s.exit := rfl
@[simp] theorem withHandlers_port : (s.withHandlers t).port = s.port := rfl
@[simp] theorem withHandlers_staging : (s.withHandlers t).staging = s.staging := rfl
@[simp] theorem withHandlers_agenda : (s.withHandlers t).agenda = s.agenda := rfl
@[simp] theorem withHandlers_stream : (s.withHandlers t).stream = s.stream := rfl
@[simp] theorem withHandlers_peers : (s.withHandlers t).peers = s.peers := rfl
@[simp] theorem withHandlers_draws : (s.withHandlers t).draws = s.draws := rfl
@[simp] theorem withHandlers_verdict : (s.withHandlers t).verdict = s.verdict := rfl
end

section
variable (s : State) (n : Nat)
@[simp] theorem withNextId_cfg : (s.withNextId n).cfg = s.cfg := rfl
@[simp] theorem withNextId_phase : (s.withNextId n).phase = s.phase := rfl
@[simp] theorem withNextId_sock : (s.withNextId n).sock = s.sock := rfl
@[simp] theorem withNextId_handlers : (s.withNextId n).handlers = s.handlers := rfl
@[simp] theorem withNextId_nextId : (s.withNextId n).nextId = n := rfl
@[simp] theorem withNextId_trace : (s.withNextId n).trace = s.trace := rfl
@[simp] theorem withNextId_diag : (s.withNextId n).diag = s.diag := rfl
@[simp] theorem withNextId_exit : (s.withNextId n).exit = s.exit := rfl
@[simp] theorem withNextId_port : (s.withNextId n).port = s.port := rfl
@[simp] theorem withNextId_staging : (s.withNextId n).staging = s.staging := rfl
@[simp] theorem withNextId_agenda : (s.withNextId n).agenda = s.agenda := rfl
@[simp] theorem withNextId_stream : (s.withNextId n).stream = s.stream := rfl
@[simp] theorem withNextId_peers : (s.withNextId n).peers = s.peers := rfl
@[simp] theorem withNextId_draws : (s.withNextId n).draws = s.draws := rfl
@[simp] theorem withNextId_verdict : (s.withNextId n).verdict = s.verdict := rfl
end

section
variable (s : State) (x : Option Nat)
@[simp] theorem withExit_cfg : (s.withExit x).cfg = s.cfg := rfl
@[simp] theorem withExit_phase : (s.withExit x).phase = s.phase := rfl
@[simp] theorem withExit_sock : (s.withExit x).sock = s.sock := rfl
@[simp] theorem withExit_handlers : (s.withExit x).handlers = s.handlers := rfl
@[simp] theorem withExit_nextId : (s.withExit x).nextId = s.nextId := rfl
@[simp] theorem withExit_trace : (s.withExit x).trace = s.trace := rfl
@[simp] theorem withExit_diag : (s.withExit x).diag = s.diag := rfl
@[simp] theorem withExit_exit : (s.withExit x).exit = x := rfl
@[simp] theorem withExit_port : (s.withExit x).port = s.port := rfl
@[simp] theorem withExit_staging : (s.withExit x).staging = s.staging := rfl
@[simp] theorem withExit_agenda : (s.withExit x).agenda = s.agenda := rfl
@[simp] theorem withExit_stream : (s.withExit x).stream = s.stream := rfl
@[simp] theorem withExit_peers : (s.withExit x).peers = s.peers := rfl
@[simp] theorem withExit_draws : (s.withExit x).draws = s.draws := rfl
@[simp] theorem withExit_verdict : (s.withExit x).verdict = s.verdict := rfl
end

section
variable (s : State) (p : CodecPort)
@[simp] theorem withPort_cfg : (s.withPort p).cfg = s.cfg := rfl
@[simp] theorem withPort_phase : (s.withPort p).phase = s.phase := rfl
@[simp] theorem withPort_sock : (s.withPort p).sock = s.sock := rfl
@[simp] theorem withPort_handlers : (s.withPort p).handlers = s.handlers := rfl
@[simp] theorem withPort_nextId : (s.withPort p).nextId = s.nextId := rfl
@[simp] theorem withPort_trace : (s.withPort p).trace = s.trace := rfl
@[simp] theorem withPort_diag : (s.withPort p).diag = s.diag := rfl
@[simp] theorem withPort_exit : (s.withPort p).exit = s.exit := rfl
@[simp] theorem withPort_port : (s.withPort p).port = p := rfl
@[simp] theorem withPort_staging : (s.withPort p).staging = s.staging := rfl
@[simp] theorem withPort_agenda : (s.withPort p).agenda = s.agenda := rfl
@[simp] theorem withPort_stream : (s.withPort p).stream = s.stream := rfl
@[simp] theorem withPort_peers : (s.withPort p).peers = s.peers := rfl
@[simp] theorem withPort_draws : (s.withPort p).draws = s.draws := rfl
@[simp] theorem withPort_verdict : (s.withPort p).verdict = s.verdict := rfl
end

section
variable (s : State) (d : Bytes)
@[simp] theorem withStaging_cfg : (s.withStaging d).cfg = s.cfg := rfl
@[simp] theorem withStaging_phase : (s.withStaging d).phase = s.phase := rfl
@[simp] theorem withStaging_sock : (s.withStaging d).sock = s.sock := rfl
@[simp] theorem withStaging_handlers : (s.withStaging d).handlers = s.handlers := rfl
@[simp] theorem withStaging_nextId : (s.withStaging d).nextId = s.nextId := rfl
@[simp] theorem withStaging_trace : (s.withStaging d).trace = s.trace := rfl
@[simp] theorem withStaging_diag : (s.withStaging d).diag = s.diag := rfl
@[simp] theorem withStaging_exit : (s.withStaging d).exit = s.exit := rfl
@[simp] theorem withStaging_port : (s.withStaging d).port = s.port := rfl
@[simp] theorem withStaging_staging : (s.withStaging d).staging = d := rfl
@[simp] theorem withStaging_agenda : (s.withStaging d).agenda = s.agenda := rfl
@[simp] theorem withStaging_stream : (s.withStaging d).stream = s.stream := rfl
@[simp] theorem withStaging_peers : (s.withStaging d).peers = s.peers := rfl
@[simp] theorem withStaging_draws : (s.withStaging d).draws = s.draws := rfl
@[simp] theorem withStaging_verdict : (s.withStaging d).verdict = s.verdict := rfl
end

section
variable (s : State) (is : List Instr)
@[simp] theorem withAgenda_cfg : (s.withAgenda is).cfg = s.cfg := rfl
@[simp] theorem withAgenda_phase : (s.withAgenda is).phase = s.phase := rfl
@[simp] theorem withAgenda_sock : (s.withAgenda is).sock = s.sock := rfl
@[simp] theorem withAgenda_handlers : (s.withAgenda is).handlers = s.handlers := rfl
@[simp] theorem withAgenda_nextId : (s.withAgenda is).nextId = s.nextId := rfl
@[simp] theorem withAgenda_trace : (s.withAgenda is).trace = s.trace := rfl
@[simp] theorem withAgenda_diag : (s.withAgenda is).diag = s.diag := rfl
@[simp] theorem withAgenda_exit : (s.withAgenda is).exit = s.exit := rfl
@[simp] theorem withAgenda_port : (s.withAgenda is).port = s.port := rfl
@[simp] theorem withAgenda_staging : (s.withAgenda is).staging = s.staging := rfl
@[simp] theorem withAgenda_agenda : (s.withAgenda is).agenda = is := rfl
@[simp] theorem withAgenda_stream : (s.withAgenda is).stream = s.stream := rfl
@[simp] theorem withAgenda_peers : (s.withAgenda is).peers = s.peers := rfl
@[simp] theorem withAgenda_draws : (s.withAgenda is).draws = s.draws := rfl
@[simp] theorem withAgenda_verdict : (s.withAgenda is).verdict = s.verdict := rfl
end

section
variable (s : State) (b : Bytes)
@[simp] theorem withStream_cfg : (s.withStream b).cfg = s.cfg := rfl
@[simp] theorem withStream_phase : (s.withStream b).phase = s.phase := rfl
@[simp] theorem withStream_sock : (s.withStream b).sock = s.sock := rfl
@[simp] theorem withStream_handlers : (s.withStream b).handlers = s.handlers := rfl
@[simp] theorem withStream_nextId : (s.withStream b).nextId = s.nextId := rfl
@[simp] theorem withStream_trace : (s.withStream b).trace = s.trace := rfl
@[simp] theorem withStream_diag : (s.withStream b).diag = s.diag := rfl
@[simp] theorem withStream_exit : (s.withStream b).exit = s.exit := rfl
@[simp] theorem withStream_port : (s.withStream b).port = s.port := rfl
@[simp] theorem withStream_staging : (s.withStream b).staging = s.staging := rfl
@[simp] theorem withStream_agenda : (s.withStream b).agenda = s.agenda := rfl
@[simp] theorem withStream_stream : (s.withStream b).stream = b := rfl
@[simp] theorem withStream_peers : (s.withStream b).peers = s.peers := rfl
@[simp] theorem withStream_draws : (s.withStream b).draws = s.draws := rfl
@[simp] theorem withStream_verdict : (s.withStream b).verdict = s.verdict := rfl
end

section
variable (s : State) (p : List Addr)
@[simp] theorem withPeers_cfg : (s.withPeers p).cfg = s.cfg := rfl
@[simp] theorem withPeers_phase : (s.withPeers p).phase = s.phase := rfl
@[simp] theorem withPeers_sock : (s.withPeers p).sock = s.sock := rfl
@[simp] theorem withPeers_handlers : (s.withPeers p).handlers = s.handlers := rfl
@[simp] theorem withPeers_nextId : (s.withPeers p).nextId = s.nextId := rfl
@[simp] theorem withPeers_trace : (s.withPeers p).trace = s.trace := rfl
@[simp] theorem withPeers_diag : (s.withPeers p).diag = s.diag := rfl
@[simp] theorem withPeers_exit : (s.withPeers p).exit = s.exit := rfl
@[simp] theorem withPeers_port : (s.withPeers p).port = s.port := rfl
@[simp] theorem withPeers_staging : (s.withPeers p).staging = s.staging := rfl
@[simp] theorem withPeers_agenda : (s.withPeers p).agenda = s.agenda := rfl
@[simp] theorem withPeers_stream : (s.withPeers p).stream = s.stream := rfl
@[simp] theorem withPeers_peers : (s.withPeers p).peers = p := rfl
@[simp] theorem withPeers_draws : (s.withPeers p).draws = s.draws := rfl
@[simp] theorem withPeers_verdict : (s.withPeers p).verdict = s.verdict := rfl
end

section
variable (s : State) (e : Event)
@[simp] theorem emit_cfg : (s.emit e).cfg = s.cfg := rfl
@[simp] theorem emit_phase : (s.emit e).phase = s.phase := rfl
@[simp] theorem emit_sock : (s.emit e).sock = s.sock := rfl
@[simp] theorem emit_handlers : (s.emit e).handlers = s.handlers := rfl
@[simp] theorem emit_nextId : (s.emit e).nextId = s.nextId := rfl
@[simp] theorem emit_trace : (s.emit e).trace = s.trace ++ [e] := rfl
@[simp] theorem emit_diag : (s.emit e).diag = s.diag := rfl
@[simp] theorem emit_exit : (s.emit e).exit = s.exit := rfl
@[simp] theorem emit_port : (s.emit e).port = s.port := rfl
@[simp] theorem emit_staging : (s.emit e).staging = s.staging := rfl
@[simp] theorem emit_agenda : (s.emit e).agenda = s.agenda := rfl
@[simp] theorem emit_stream : (s.emit e).stream = s.stream := rfl
@[simp] theorem emit_peers : (s.emit e).peers = s.peers := rfl
@[simp] theorem emit_draws : (s.emit e).draws = s.draws := rfl
@[simp] theorem emit_verdict : (s.emit e).verdict = s.verdict := rfl
end

section
variable (s : State) (k : LogKind)
@[simp] theorem log_cfg : (s.log k).cfg = s.cfg := rfl
@[simp] theorem log_phase : (s.log k).phase = s.phase := rfl
@[simp] theorem log_sock : (s.log k).sock = s.sock := rfl
@[simp] theorem log_handlers : (s.log k).handlers = s.handlers := rfl
@[simp] theorem log_nextId : (s.log k).nextId = s.nextId := rfl
@[simp] theorem log_trace : (s.log k).trace = s.trace := rfl
@[simp] theorem log_diag : (s.log k).diag = s.diag ++ [{ kind := k, text := Config.freeText s.draws }] := rfl
@[simp] theorem log_exit : (s.log k).exit = s.exit := rfl
@[simp] theorem log_port : (s.log k).port = s.port := rfl
@[simp] theorem log_staging : (s.log k).staging = s.staging := rfl
@[simp] theorem log_agenda : (s.log k).agenda = s.agenda := rfl
@[simp] theorem log_stream : (s.log k).stream = s.stream := rfl
@[simp] theorem log_peers : (s.log k).peers = s.peers := rfl
@[simp] theorem log_draws : (s.log k).draws = s.draws + 1 := rfl
@[simp] theorem log_verdict : (s.log k).verdict = s.verdict := rfl
end

section
variable (s : State) (k : LogKind)
@[simp] theorem logMaybe_cfg : (s.logMaybe k).cfg = s.cfg := rfl
@[simp] theorem logMaybe_phase : (s.logMaybe k).phase = s.phase := rfl
@[simp] theorem logMaybe_sock : (s.logMaybe k).sock = s.sock := rfl
@[simp] theorem logMaybe_handlers : (s.logMaybe k).handlers = s.handlers := rfl
@[simp] theorem logMaybe_nextId : (s.logMaybe k).nextId = s.nextId := rfl
@[simp] theorem logMaybe_trace : (s.logMaybe k).trace = s.trace := rfl
@[simp] theorem logMaybe_diag :
    (s.logMaybe k).diag =
      s.diag ++ (if Config.freeDump s.draws then [{ kind := k, text := Config.freeText s.draws }] else []) := rfl
@[simp] theorem logMaybe_exit : (s.logMaybe k).exit = s.exit := rfl
@[simp] theorem logMaybe_port : (s.logMaybe k).port = s.port := rfl
@[simp] theorem logMaybe_staging : (s.logMaybe k).staging = s.staging := rfl
@[simp] theorem logMaybe_agenda : (s.logMaybe k).agenda = s.agenda := rfl
@[simp] theorem logMaybe_stream : (s.logMaybe k).stream = s.stream := rfl
@[simp] theorem logMaybe_peers : (s.logMaybe k).peers = s.peers := rfl
@[simp] theorem logMaybe_draws : (s.logMaybe k).draws = s.draws + 1 := rfl
@[simp] theorem logMaybe_verdict : (s.logMaybe k).verdict = s.verdict := rfl
end

section
variable (s : State) (v : Verdict)
@[simp] theorem mark_cfg : (s.mark v).cfg = s.cfg := rfl
@[simp] theorem mark_phase : (s.mark v).phase = s.phase := rfl
@[simp] theorem mark_sock : (s.mark v).sock = s.sock := rfl
@[simp] theorem mark_handlers : (s.mark v).handlers = s.handlers := rfl
@[simp] theorem mark_nextId : (s.mark v).nextId = s.nextId := rfl
@[simp] theorem mark_trace : (s.mark v).trace = s.trace := rfl
@[simp] theorem mark_diag : (s.mark v).diag = s.diag := rfl
@[simp] theorem mark_exit : (s.mark v).exit = s.exit := rfl
@[simp] theorem mark_port : (s.mark v).port = s.port := rfl
@[simp] theorem mark_staging : (s.mark v).staging = s.staging := rfl
@[simp] theorem mark_agenda : (s.mark v).agenda = s.agenda := rfl
@[simp] theorem mark_stream : (s.mark v).stream = s.stream := rfl
@[simp] theorem mark_peers : (s.mark v).peers = s.peers := rfl
@[simp] theorem mark_draws : (s.mark v).draws = s.draws := rfl
@[simp] theorem mark_verdict : (s.mark v).verdict = v := rfl
end

end Sys2Proof.Machine.State
end

