-- ==== Sys2Proof/Laws/Table.lean ====
section
/-! SUPPORT. The handler table is a finite map: reads after writes, the canonical form, and updates of different ids
that commute. -/

namespace Sys2Proof.Machine.HandlerTable

variable (t : HandlerTable) (h k : Nat) (r x : Handler)

theorem get?_put : (t.put h r).get? k = if k = h then some r else t.get? k := by
  induction t with
  | nil => by_cases hk : h = k <;> simp [put, get?, hk, eq_comm]
  | cons e t ih =>
    obtain ⟨j, y⟩ := e
    simp only [put]
    split_ifs with h1 h2 hk hk hk <;> simp_all only [get?] <;> grind

theorem get?_remove : (t.remove h).get? k = if k = h then none else t.get? k := by
  induction t with
  | nil => simp [remove, get?]
  | cons e t ih =>
    obtain ⟨j, y⟩ := e
    simp only [remove]
    split_ifs <;> simp_all only [get?] <;> grind

@[simp] theorem get?_put_self : (t.put h r).get? h = some r := by simp [get?_put]

@[simp] theorem get?_remove_self : (t.remove h).get? h = none := by simp [get?_remove]

theorem mem_put {e : Nat × Handler} : e ∈ t.put h r → e = (h, r) ∨ e ∈ t := by
  induction t with
  | nil => simp [put]
  | cons e' t ih =>
    obtain ⟨j, y⟩ := e'
    simp only [put]
    split_ifs <;> simp_all <;> tauto

theorem mem_remove {e : Nat × Handler} : e ∈ t.remove h ↔ e ∈ t ∧ e.1 ≠ h := by
  induction t with
  | nil => simp [remove]
  | cons e' t ih =>
    obtain ⟨j, y⟩ := e'
    simp only [remove]
    split_ifs <;> grind

theorem mem_of_get?_eq_some {h : Nat} {r : Handler} (hg : t.get? h = some r) : (h, r) ∈ t := by
  induction t with
  | nil => simp [get?] at hg
  | cons e t ih =>
    obtain ⟨j, y⟩ := e
    simp only [get?] at hg
    split_ifs at hg <;> simp_all

/-- An entry of a canonical table is what a read of its id gives. -/
theorem get?_of_mem {t : HandlerTable} (hw : t.wf) {h : Nat} {r : Handler} (hm : (h, r) ∈ t) : t.get? h = some r := by
  induction t with
  | nil => simp at hm
  | cons e t ih =>
    obtain ⟨j, y⟩ := e
    rw [wf, List.pairwise_cons] at hw
    simp only [get?]
    rcases List.mem_cons.1 hm with heq | hm
    · cases heq
      simp
    · have := hw.1 _ hm
      rw [if_neg (by simp at this; omega)]
      exact ih hw.2 hm

theorem put_wf (hw : t.wf) : (t.put h r).wf := by
  induction t with
  | nil => simp [put]
  | cons e t ih =>
    obtain ⟨j, y⟩ := e
    rw [wf, List.pairwise_cons] at hw
    simp only [put]
    split_ifs with h1 h2
    · rw [wf, List.pairwise_cons]
      refine ⟨fun e he => ?_, ih hw.2⟩
      rcases mem_put t h r he with rfl | he
      · exact h1
      · exact hw.1 _ he
    · subst h2
      exact List.pairwise_cons.2 hw
    · rw [wf, List.pairwise_cons, List.pairwise_cons]
      refine ⟨fun e he => ?_, hw⟩
      rcases List.mem_cons.1 he with rfl | he
      · simp; omega
      · have := hw.1 _ he
        simp at this ⊢
        omega

theorem remove_wf (hw : t.wf) : (t.remove h).wf := by
  induction t with
  | nil => exact hw
  | cons e t ih =>
    obtain ⟨j, y⟩ := e
    rw [wf, List.pairwise_cons] at hw
    simp only [remove]
    split_ifs with h1
    · exact ih hw.2
    · rw [wf, List.pairwise_cons]
      exact ⟨fun e he => hw.1 _ ((mem_remove t h).1 he).1, ih hw.2⟩

/-- A canonical table is known by its reads. -/
theorem ext {t u : HandlerTable} (ht : t.wf) (hu : u.wf) (hg : ∀ h, t.get? h = u.get? h) : t = u := by
  have hmem : ∀ e, e ∈ t ↔ e ∈ u := fun e =>
    ⟨fun he => mem_of_get?_eq_some u (by rw [← hg]; exact get?_of_mem ht he),
      fun he => mem_of_get?_eq_some t (by rw [hg]; exact get?_of_mem hu he)⟩
  have hnd : ∀ {v : HandlerTable}, v.wf → v.Nodup := fun hv =>
    List.Pairwise.imp (fun {a b} hab heq => by rw [heq] at hab; exact lt_irrefl _ hab) hv
  refine List.Perm.eq_of_pairwise (fun a b _ _ hab hba => absurd hab (lt_asymm hba)) ht hu ?_
  exact (List.perm_ext_iff_of_nodup (hnd ht) (hnd hu)).2 hmem

end Sys2Proof.Machine.HandlerTable
end

