-- ==== Sys2Proof/Laws/Ops.lean ====
section
/-! SUPPORT. What the shared operations do, once each; the inversion of `exec` (`Effect`), of `fetch` and of `step`. -/

namespace Sys2Proof.Machine

/-! ## The shared operations -/

theorem ifLegal_eq_next_iff {s t : State} {x : Answer} :
    ifLegal s x = .next t ↔ s.cfg.legal = true ∧ x = .next t := by
  unfold ifLegal
  split_ifs with h <;> simp [h]

@[simp] theorem ifLegal_of_legal {s : State} {x : Answer} (h : s.cfg.legal = true) : ifLegal s x = x := by
  simp [ifLegal, h]

@[simp] theorem moved_eq_next_iff {u t : State} : moved u = .next t ↔ t = u.mark .moved := by
  simp [moved, eq_comm]

@[simp] theorem noStep_eq_next_iff {s t : State} : noStep s = .next t ↔ t = s.mark .noStep := by
  simp [noStep, eq_comm]

theorem peerAt?_isSome_iff (s : State) (peer : Nat) :
    (∃ a, s.peerAt? peer = some a) ↔ peer < s.peers.length := by
  constructor
  · rintro ⟨a, ha⟩
    exact (List.getElem?_eq_some_iff.1 ha).1
  · exact fun h => ⟨_, List.getElem?_eq_getElem h⟩

theorem readyHandler?_eq_some_iff {s : State} {h : Nat} {r : Handler} :
    s.readyHandler? h = some r ↔ s.phase = .running ∧ s.handlers.get? h = some r ∧ r.stage = .ready := by
  unfold State.readyHandler?
  split_ifs with hp
  · cases hg : s.handlers.get? h with
    | none => simp
    | some x =>
      by_cases hx : x.stage = .ready
      · simp only [hx, if_true, Option.some.injEq, hp, true_and]
        exact ⟨fun he => ⟨he, he ▸ hx⟩, fun he => he.1⟩
      · simp only [hx, if_false, hp, true_and, Option.some.injEq, reduceCtorEq, false_iff, not_and]
        exact fun he => he ▸ hx
  · simp [hp]

theorem pendingReply?_eq_some_iff {s : State} {h : Nat} {a : Addr} {b : Bytes} :
    s.pendingReply? h = some (a, b) ↔
      s.phase = .running ∧ ∃ d, s.handlers.get? h = some { peer := a, payload := d, stage := .pending b } := by
  unfold State.pendingReply?
  split_ifs with hp
  · cases hg : s.handlers.get? h with
    | none => simp
    | some x =>
      obtain ⟨p, d, st⟩ := x
      cases st <;> simp [hp]
  · simp [hp]

theorem limitReached_iff {s : State} :
    s.limitReached = true ↔ ∃ k, s.cfg.inflightLimit = some k ∧ k ≤ s.handlers.length := by
  unfold State.limitReached
  cases s.cfg.inflightLimit <;> simp

theorem canDeliver_iff {s : State} {d : Bytes} : s.canDeliver d = true ↔ d.length ≤ s.cfg.rxMax := by
  simp [State.canDeliver]

theorem outcomeFits_iff {o : WriteOutcome} {b : Bytes} :
    outcomeFits o b = true ↔ ∀ n, o = .short n → n < b.length := by
  cases o <;> simp [outcomeFits]

/-- Every field of the state a write leaves, but the diagnostics: the event, and the handler gone. -/
theorem write_quiet (s : State) (h : Nat) (a : Addr) (b : Bytes) (o : WriteOutcome) :
    (s.write h a b o).quiet = ((s.emit (.tx h a b o)).withHandlers (s.handlers.remove h)).quiet := by
  unfold State.write
  split_ifs <;> rfl

@[simp] theorem write_handlers (s : State) (h : Nat) (a : Addr) (b : Bytes) (o : WriteOutcome) :
    (s.write h a b o).handlers = s.handlers.remove h :=
  (congrArg State.handlers (write_quiet s h a b o) :)

@[simp] theorem write_trace (s : State) (h : Nat) (a : Addr) (b : Bytes) (o : WriteOutcome) :
    (s.write h a b o).trace = s.trace ++ [.tx h a b o] :=
  (congrArg State.trace (write_quiet s h a b o) :)

@[simp] theorem write_cfg (s : State) (h : Nat) (a : Addr) (b : Bytes) (o : WriteOutcome) :
    (s.write h a b o).cfg = s.cfg :=
  (congrArg State.cfg (write_quiet s h a b o) :)

@[simp] theorem write_phase (s : State) (h : Nat) (a : Addr) (b : Bytes) (o : WriteOutcome) :
    (s.write h a b o).phase = s.phase :=
  (congrArg State.phase (write_quiet s h a b o) :)

@[simp] theorem write_sock (s : State) (h : Nat) (a : Addr) (b : Bytes) (o : WriteOutcome) :
    (s.write h a b o).sock = s.sock :=
  (congrArg State.sock (write_quiet s h a b o) :)

@[simp] theorem write_nextId (s : State) (h : Nat) (a : Addr) (b : Bytes) (o : WriteOutcome) :
    (s.write h a b o).nextId = s.nextId :=
  (congrArg State.nextId (write_quiet s h a b o) :)

@[simp] theorem write_exit (s : State) (h : Nat) (a : Addr) (b : Bytes) (o : WriteOutcome) :
    (s.write h a b o).exit = s.exit :=
  (congrArg State.exit (write_quiet s h a b o) :)

@[simp] theorem write_port (s : State) (h : Nat) (a : Addr) (b : Bytes) (o : WriteOutcome) :
    (s.write h a b o).port = s.port :=
  (congrArg State.port (write_quiet s h a b o) :)

@[simp] theorem write_staging (s : State) (h : Nat) (a : Addr) (b : Bytes) (o : WriteOutcome) :
    (s.write h a b o).staging = s.staging :=
  (congrArg State.staging (write_quiet s h a b o) :)

@[simp] theorem write_agenda (s : State) (h : Nat) (a : Addr) (b : Bytes) (o : WriteOutcome) :
    (s.write h a b o).agenda = s.agenda :=
  (congrArg State.agenda (write_quiet s h a b o) :)

@[simp] theorem write_stream (s : State) (h : Nat) (a : Addr) (b : Bytes) (o : WriteOutcome) :
    (s.write h a b o).stream = s.stream :=
  (congrArg State.stream (write_quiet s h a b o) :)

@[simp] theorem write_peers (s : State) (h : Nat) (a : Addr) (b : Bytes) (o : WriteOutcome) :
    (s.write h a b o).peers = s.peers :=
  (congrArg State.peers (write_quiet s h a b o) :)

/-! ## What an operation can do -/

/-- The ways an operation moves the state, with the conditions under which it does: `Effect i s u` says that `exec i s`
moves to `u` (up to the verdict). -/
inductive Effect : Instr → State → State → Prop where
  | command {i : Instr} {s : State} (p : CodecPort) : CodecOp i → s.phase ≠ .terminated → Effect i s (s.withPort p)
  | bindSuccess {s : State} : s.phase = .boot → s.sock = .unbound →
      Effect (.bind .success) s (((s.withSock (.bound s.cfg.bindHost s.cfg.port)).withPhase .running).emit .bound)
  | bindFailure {s : State} (code : Nat) : s.phase = .boot → s.sock = .unbound → code ≠ 0 →
      Effect (.bind (.failure code)) s (s.takeError (.ioBind code))
  | reject {s : State} (peer : Nat) (a : Addr) (d : Bytes) : s.phase = .running → s.peerAt? peer = some a →
      d.length ≤ s.cfg.rxMax → s.limitReached = true →
      Effect (.recv peer d) s (((s.withStaging d).emit (.reject a d)).logMaybe .rxDump)
  | spawn {s : State} (peer : Nat) (a : Addr) (d : Bytes) : s.phase = .running → s.peerAt? peer = some a →
      d.length ≤ s.cfg.rxMax → s.limitReached = false →
      Effect (.recv peer d) s (((s.withStaging d).spawn a).logMaybe .rxDump)
  | recvFail {s : State} : s.phase = .running → Effect .recvFail s (s.takeError .ioReceive)
  | drop {s : State} (h : Nat) (r : Handler) : s.phase = .running → s.handlers.get? h = some r →
      r.stage = .ready → process s.cfg r.payload = .err .malformedMessage →
      Effect (.handle h) s (s.takeError (.malformedMessage h))
  | reply {s : State} (h : Nat) (r : Handler) (b : Bytes) : s.phase = .running → s.handlers.get? h = some r →
      r.stage = .ready → process s.cfg r.payload = .ok b →
      Effect (.handle h) s
        ((s.withHandlers (s.handlers.put h { r with stage := .pending b })).logMaybe .parsed)
  | write {s : State} (h : Nat) (a : Addr) (d b : Bytes) (o : WriteOutcome) : s.phase = .running →
      s.handlers.get? h = some { peer := a, payload := d, stage := .pending b } → outcomeFits o b = true →
      Effect (.send h o) s (s.write h a b o)
  | stop {s : State} : s.phase ≠ .terminated → Effect .stop s ((s.withPhase .terminated).emit .stopped)

theorem command_eq_next {cmd : Byte} {inp : PortValue} {r : Result BlockError PortValue} {s t : State}
    (h : command cmd inp r s = .next t) :
    s.cfg.legal = true ∧ (t = s.mark .noStep ∨
      ∃ p, s.phase ≠ .terminated ∧ t = (s.withPort p).mark .moved) := by
  simp only [command, ifLegal_eq_next_iff] at h
  refine ⟨h.1, ?_⟩
  obtain ⟨-, h⟩ := h
  split_ifs at h with hp
  · exact .inl (noStep_eq_next_iff.1 h)
  · exact .inr ⟨_, hp, moved_eq_next_iff.1 h⟩

/-- Everything `exec` can do when it answers a next state: no step, or one of the effects. -/
theorem exec_eq_next {i : Instr} {s t : State} (h : exec i s = .next t) :
    s.cfg.legal = true ∧ (t = s.mark .noStep ∨ ∃ u, Effect i s u ∧ t = u.mark .moved) := by
  cases i with
  | decode input =>
    obtain ⟨hl, hn | ⟨p, hp, ht⟩⟩ := command_eq_next h
    · exact ⟨hl, .inl hn⟩
    · exact ⟨hl, .inr ⟨_, .command p (.decode input) hp, ht⟩⟩
  | encode m =>
    obtain ⟨hl, hn | ⟨p, hp, ht⟩⟩ := command_eq_next h
    · exact ⟨hl, .inl hn⟩
    · exact ⟨hl, .inr ⟨_, .command p (.encode m) hp, ht⟩⟩
  | buildReply q =>
    obtain ⟨hl, hn | ⟨p, hp, ht⟩⟩ := command_eq_next h
    · exact ⟨hl, .inl hn⟩
    · exact ⟨hl, .inr ⟨_, .command p (.buildReply q) hp, ht⟩⟩
  | bind answer =>
    simp only [exec, execBind, ifLegal_eq_next_iff] at h
    refine ⟨h.1, ?_⟩
    obtain ⟨-, h⟩ := h
    split_ifs at h with hb
    · cases answer with
      | success => exact .inr ⟨_, .bindSuccess hb.1 hb.2.1, moved_eq_next_iff.1 h⟩
      | failure code =>
        exact .inr ⟨_, .bindFailure code hb.1 hb.2.1 (by simpa [answerFits] using hb.2.2), moved_eq_next_iff.1 h⟩
    · exact .inl (noStep_eq_next_iff.1 h)
  | recv peer d =>
    simp only [exec, execRecv, ifLegal_eq_next_iff] at h
    refine ⟨h.1, ?_⟩
    obtain ⟨-, h⟩ := h
    cases ha : s.peerAt? peer with
    | none => simp [ha] at h
    | some a =>
      simp only [ha] at h
      split_ifs at h with hr hlim
      · exact .inr ⟨_, .reject peer a d hr.1 ha (canDeliver_iff.1 hr.2) hlim, moved_eq_next_iff.1 h⟩
      · exact .inr ⟨_, .spawn peer a d hr.1 ha (canDeliver_iff.1 hr.2) (by simpa using hlim), moved_eq_next_iff.1 h⟩
      · exact .inl (noStep_eq_next_iff.1 h)
  | recvFail =>
    simp only [exec, execRecvFail, ifLegal_eq_next_iff] at h
    refine ⟨h.1, ?_⟩
    obtain ⟨-, h⟩ := h
    split_ifs at h with hp
    · exact .inr ⟨_, .recvFail hp, moved_eq_next_iff.1 h⟩
    · exact .inl (noStep_eq_next_iff.1 h)
  | handle k =>
    simp only [exec, execHandle, ifLegal_eq_next_iff] at h
    refine ⟨h.1, ?_⟩
    obtain ⟨-, h⟩ := h
    cases hr : s.readyHandler? k with
    | none => exact .inl (noStep_eq_next_iff.1 (by simpa [hr] using h))
    | some r =>
      obtain ⟨hp, hg, hst⟩ := readyHandler?_eq_some_iff.1 hr
      cases hq : process s.cfg r.payload with
      | ok b => exact .inr ⟨_, .reply k r b hp hg hst hq, moved_eq_next_iff.1 (by simpa [hr, hq] using h)⟩
      | err e =>
        obtain ⟨rfl, -⟩ := process_err hq
        exact .inr ⟨_, .drop k r hp hg hst hq, moved_eq_next_iff.1 (by simpa [hr, hq] using h)⟩
  | send k o =>
    simp only [exec, execSend, ifLegal_eq_next_iff] at h
    refine ⟨h.1, ?_⟩
    obtain ⟨-, h⟩ := h
    cases hr : s.pendingReply? k with
    | none => exact .inl (noStep_eq_next_iff.1 (by simpa [hr] using h))
    | some ab =>
      obtain ⟨a, b⟩ := ab
      obtain ⟨hp, d, hg⟩ := pendingReply?_eq_some_iff.1 hr
      simp only [hr] at h
      split_ifs at h with hf
      · exact .inr ⟨_, .write k a d b o hp hg hf, moved_eq_next_iff.1 h⟩
      · exact .inl (noStep_eq_next_iff.1 h)
  | stop =>
    simp only [exec, execStop, ifLegal_eq_next_iff] at h
    refine ⟨h.1, ?_⟩
    obtain ⟨-, h⟩ := h
    split_ifs at h with hp
    · exact .inl (noStep_eq_next_iff.1 h)
    · exact .inr ⟨_, .stop hp, moved_eq_next_iff.1 h⟩

/-! ## Fetching and stepping -/

/-- What `fetch` takes: the first operation of the agenda, or with an empty agenda the first record of the stream. -/
theorem fetch_eq_some_iff {s u : State} {i : Instr} :
    s.fetch = .ok (some (i, u)) ↔
      (∃ rest, s.agenda = i :: rest ∧ u = s.withAgenda rest) ∨
      (s.agenda = [] ∧ ∃ rest, decodeRecord s.stream = .ok (i, rest) ∧ u = s.withStream rest) := by
  unfold State.fetch
  cases ha : s.agenda with
  | cons j js => simp [eq_comm]
  | nil =>
    cases hs : s.stream with
    | nil => simp [decodeRecord, takeU8]
    | cons c cs => simp [Result.map_eq_ok_iff, @eq_comm _ u]

/-- There is nothing to fetch exactly when agenda and stream are empty. -/
theorem fetch_eq_none_iff {s : State} : s.fetch = .ok none ↔ s.agenda = [] ∧ s.stream = [] := by
  unfold State.fetch
  cases s.agenda with
  | cons j js => simp
  | nil =>
    cases s.stream with
    | nil => simp
    | cons c cs => simp [Result.map_eq_ok_iff]

/-- Fetching takes an operation away and changes nothing else. -/
theorem fetch_rest {s u : State} {i : Instr} (h : s.fetch = .ok (some (i, u))) :
    ∃ agenda stream, u = (s.withAgenda agenda).withStream stream := by
  obtain ⟨rest, -, rfl⟩ | ⟨-, rest, -, rfl⟩ := fetch_eq_some_iff.1 h
  · exact ⟨rest, s.stream, rfl⟩
  · exact ⟨s.agenda, rest, rfl⟩

/-- Everything `step` can do when it answers a next state: wait, or run the operation fetched. -/
theorem step_eq_next {s t : State} (h : step s = .next t) :
    s.cfg.legal = true ∧ (s.fetch = .ok none ∧ t = s.mark .waits ∨
      ∃ i u, s.fetch = .ok (some (i, u)) ∧ exec i u = .next t) := by
  simp only [step, ifLegal_eq_next_iff] at h
  refine ⟨h.1, ?_⟩
  obtain ⟨-, h⟩ := h
  cases hf : s.fetch with
  | err e => simp [hf] at h
  | ok o =>
    cases o with
    | none => exact .inl ⟨rfl, by simpa [hf, waits, eq_comm] using h⟩
    | some iu => exact .inr ⟨iu.1, iu.2, rfl, by simpa [hf] using h⟩

/-- A step under a legal configuration runs the operation fetched. -/
theorem step_of_fetch {s u : State} {i : Instr} (hl : s.cfg.legal = true) (h : s.fetch = .ok (some (i, u))) :
    step s = exec i u := by
  simp [step, hl, h]

/-- A step with nothing to fetch is a wait. -/
theorem step_of_fetch_none {s : State} (hl : s.cfg.legal = true) (h : s.fetch = .ok none) :
    step s = .next (s.mark .waits) := by
  simp [step, hl, h, waits]

/-- An environment that adds nothing. -/
@[simp] theorem given_nil (s : State) : s.given [] [] [] = s := by
  simp [State.given, State.withAgenda, State.withStream, State.withPeers]

/-- A step is a wait, an operation without a step, or one effect of the operation fetched. -/
theorem step_cases {s t : State} (h : step s = .next t) :
    s.cfg.legal = true ∧ (t = s.mark .waits ∨
      ∃ i u, s.fetch = .ok (some (i, u)) ∧ (t = u.mark .noStep ∨ ∃ v, Effect i u v ∧ t = v.mark .moved)) := by
  obtain ⟨hl, ⟨-, ht⟩ | ⟨i, u, hf, he⟩⟩ := step_eq_next h
  · exact ⟨hl, .inl ht⟩
  · exact ⟨hl, .inr ⟨i, u, hf, (exec_eq_next he).2⟩⟩

end Sys2Proof.Machine
end

