-- ==== Sys2Proof/Laws/Record.lean ====
section
/-! SUPPORT. The operand readers of a record undo the operand writers, and read nothing else. -/

namespace Sys2Proof

open Result

@[simp] theorem takeU8_cons (b : Byte) (s : Bytes) : takeU8 (b :: s) = .ok (b, s) := rfl

@[simp] theorem takeU16_bytes16 (v : U16) (s : Bytes) : takeU16 (bytes16 v ++ s) = .ok (v, s) := by
  simp [bytes16, takeU16]

theorem takeU16_count16 {n : Nat} (h : n < 65536) (s : Bytes) :
    ∃ v : U16, takeU16 (count16 n ++ s) = .ok (v, s) ∧ v.toNat = n :=
  ⟨_, takeU16_bytes16 _ _, ofNat16_toNat h⟩

@[simp] theorem takeN_append (b s : Bytes) : takeN b.length (b ++ s) = .ok (b, s) := by
  induction b with
  | nil => rfl
  | cons x b ih => simp [takeN, ih]

theorem takeMany_flatMap {α : Type} {item : Bytes → Taken α} {write : α → Bytes} {xs : List α}
    (hitem : ∀ x ∈ xs, ∀ s, item (write x ++ s) = .ok (x, s)) (s : Bytes) :
    takeMany item xs.length (xs.flatMap write ++ s) = .ok (xs, s) := by
  induction xs with
  | nil => rfl
  | cons x xs ih =>
    have hx := hitem x (by simp) (xs.flatMap write ++ s)
    have hxs := ih fun y hy => hitem y (by simp [hy])
    simp [takeMany, List.flatMap_cons, List.append_assoc, hx, hxs]

@[simp] theorem takeLabel_labelRecord (l : Label) (s : Bytes) : takeLabel (labelRecord l ++ s) = .ok (l, s) := by
  have h := ofNat8_toNat l.fits
  simp [takeLabel, labelRecord, h, -BitVec.toNat_ofNat]

theorem takeQuestion_questionRecord {q : Question} (hq : q.wf = true) (s : Bytes) :
    takeQuestion (questionRecord q ++ s) = .ok (q, s) := by
  have hlt : q.labels.length < 65536 := by simpa [Question.wf] using hq
  obtain ⟨v, hv, hn⟩ := takeU16_count16 hlt (q.labels.flatMap labelRecord ++ (bytes16 q.qtype ++ (bytes16 q.qclass ++ s)))
  have hl := takeMany_flatMap (item := takeLabel) (write := labelRecord) (xs := q.labels)
    (fun l _ => takeLabel_labelRecord l) (bytes16 q.qtype ++ (bytes16 q.qclass ++ s))
  simp only [takeQuestion, questionRecord, List.append_assoc, hv, bind_ok, hn, hl, takeU16_bytes16, map_ok]

@[simp] theorem takeHeader_headerBytes (h : Header) (s : Bytes) : takeHeader (headerBytes h ++ s) = .ok (h, s) := by
  simp only [takeHeader, headerBytes, List.append_assoc, takeU16_bytes16, bind_ok, map_ok]

theorem takeMessage_messageRecord {m : Message} (hm : m.wf = true) (s : Bytes) :
    takeMessage (messageRecord m ++ s) = .ok (m, s) := by
  obtain ⟨hlt, hqs⟩ : m.questions.length < 65536 ∧ ∀ q ∈ m.questions, q.wf = true := by
    simpa [Message.wf] using hm
  obtain ⟨v, hv, hn⟩ := takeU16_count16 hlt (m.questions.flatMap questionRecord ++ s)
  have hq := takeMany_flatMap (item := takeQuestion) (write := questionRecord) (xs := m.questions)
    (fun q hq => takeQuestion_questionRecord (hqs q hq)) s
  simp only [takeMessage, messageRecord, List.append_assoc, takeHeader_headerBytes, bind_ok, hv, hn, hq, map_ok]

theorem takeBytes_bytesRecord {b : Bytes} (hb : b.length < 65536) (s : Bytes) :
    takeBytes (bytesRecord b ++ s) = .ok (b, s) := by
  obtain ⟨v, hv, hn⟩ := takeU16_count16 hb (b ++ s)
  simp only [takeBytes, bytesRecord, List.append_assoc, hv, bind_ok, hn, takeN_append]

theorem takeBindAnswer_bindRecord {a : BindAnswer} (ha : a.wf = true) (s : Bytes) :
    takeBindAnswer (bindRecord a ++ s) = .ok (a, s) := by
  cases a with
  | success => rfl
  | failure code =>
    obtain ⟨hc, hlt⟩ : code ≠ 0 ∧ code < 256 := by simpa [BindAnswer.wf] using ha
    have hn : (BitVec.ofNat 8 code).toNat = code := ofNat8_toNat (by omega)
    have hz : ¬ BitVec.ofNat 8 code = 0#8 := by rw [← byte_toNat_eq_zero_iff, hn]; exact hc
    simp [takeBindAnswer, bindRecord, hz, hn, -BitVec.toNat_ofNat]

theorem takeOutcome_outcomeRecord {o : WriteOutcome} (ho : o.wf = true) (s : Bytes) :
    takeOutcome (outcomeRecord o ++ s) = .ok (o, s) := by
  cases o with
  | ok => simp [takeOutcome, outcomeRecord]
  | short n =>
    obtain ⟨v, hv, rfl⟩ := takeU16_count16 (n := n) (by simpa [WriteOutcome.wf] using ho) s
    simp [takeOutcome, outcomeRecord, hv]
  | error => simp [takeOutcome, outcomeRecord]

/-! ## What a reader returns was written -/

theorem takeU8_eq_ok {s rest : Bytes} {b : Byte} (h : takeU8 s = .ok (b, rest)) : s = b :: rest := by
  cases s <;> simp_all [takeU8]

theorem takeU16_eq_ok {s rest : Bytes} {v : U16} (h : takeU16 s = .ok (v, rest)) : s = bytes16 v ++ rest := by
  match s, h with
  | [], h => simp [takeU16] at h
  | [_], h => simp [takeU16] at h
  | hi :: lo :: s, h =>
    simp only [takeU16, Result.ok.injEq, Prod.mk.injEq] at h
    obtain ⟨rfl, rfl⟩ := h
    simp

theorem takeN_eq_ok {n : Nat} {s rest b : Bytes} (h : takeN n s = .ok (b, rest)) : b.length = n ∧ s = b ++ rest := by
  induction n generalizing s b with
  | zero => simp_all [takeN]
  | succ n ih =>
    cases s with
    | nil => simp [takeN] at h
    | cons x s =>
      simp only [takeN, map_eq_ok_iff, Prod.exists, Prod.mk.injEq] at h
      obtain ⟨b', r, hr, rfl, rfl⟩ := h
      obtain ⟨h1, h2⟩ := ih hr
      simp [h1, h2]

theorem takeMany_eq_ok {α : Type} {item : Bytes → Taken α} {write : α → Bytes} {P : α → Prop}
    (hitem : ∀ s x rest, item s = .ok (x, rest) → P x ∧ s = write x ++ rest) {n : Nat} {s rest : Bytes} {xs : List α}
    (h : takeMany item n s = .ok (xs, rest)) :
    xs.length = n ∧ (∀ x ∈ xs, P x) ∧ s = xs.flatMap write ++ rest := by
  induction n generalizing s xs with
  | zero => simp_all [takeMany]
  | succ n ih =>
    simp only [takeMany, bind_eq_ok_iff, map_eq_ok_iff, Prod.exists, Prod.mk.injEq] at h
    obtain ⟨x, s', hx, xs', r, hxs, rfl, rfl⟩ := h
    obtain ⟨hP, rfl⟩ := hitem _ _ _ hx
    obtain ⟨hn, hPs, rfl⟩ := ih hxs
    simp_all

theorem bytes16_count_of_toNat {v : U16} {n : Nat} (h : n = v.toNat) : count16 n = bytes16 v := by
  subst h
  simp [count16]

theorem takeLabel_eq_ok {s rest : Bytes} {l : Label} (h : takeLabel s = .ok (l, rest)) :
    s = labelRecord l ++ rest := by
  simp only [takeLabel, bind_eq_ok_iff, map_eq_ok_iff, Prod.exists, Prod.mk.injEq] at h
  obtain ⟨n, s', h1, b, r, h2, rfl, rfl⟩ := h
  obtain ⟨hlen, rfl⟩ := takeN_eq_ok h2
  rw [takeU8_eq_ok h1]
  have hfit : b.length ≤ 255 := by have := n.isLt; omega
  have hb : (Label.ofBytes b).bytes = b := List.take_of_length_le hfit
  rw [labelRecord, hb, hlen, BitVec.ofNat_toNat, BitVec.setWidth_eq]
  rfl

theorem takeQuestion_eq_ok {s rest : Bytes} {q : Question} (h : takeQuestion s = .ok (q, rest)) :
    q.wf = true ∧ s = questionRecord q ++ rest := by
  simp only [takeQuestion, bind_eq_ok_iff, map_eq_ok_iff, Prod.exists, Prod.mk.injEq] at h
  obtain ⟨nl, s1, h1, ls, s2, h2, qt, s3, h3, qc, s4, h4, rfl, rfl⟩ := h
  obtain ⟨hn, -, rfl⟩ := takeMany_eq_ok (P := fun _ => True) (write := labelRecord)
    (fun _ _ _ h => ⟨trivial, takeLabel_eq_ok h⟩) h2
  obtain rfl := takeU16_eq_ok h3
  obtain rfl := takeU16_eq_ok h4
  refine ⟨by simp only [Question.wf, decide_eq_true_eq, hn]; exact nl.isLt, ?_⟩
  rw [takeU16_eq_ok h1, questionRecord, bytes16_count_of_toNat hn]
  simp only [List.append_assoc]

theorem takeHeader_eq_ok {s rest : Bytes} {hd : Header} (h : takeHeader s = .ok (hd, rest)) :
    s = headerBytes hd ++ rest := by
  simp only [takeHeader, bind_eq_ok_iff, map_eq_ok_iff, Prod.exists, Prod.mk.injEq] at h
  obtain ⟨a1, s1, h1, a2, s2, h2, a3, s3, h3, a4, s4, h4, a5, s5, h5, a6, s6, h6, rfl, rfl⟩ := h
  rw [takeU16_eq_ok h1, takeU16_eq_ok h2, takeU16_eq_ok h3, takeU16_eq_ok h4, takeU16_eq_ok h5, takeU16_eq_ok h6]
  simp only [headerBytes, List.append_assoc]

theorem takeMessage_eq_ok {s rest : Bytes} {m : Message} (h : takeMessage s = .ok (m, rest)) :
    m.wf = true ∧ s = messageRecord m ++ rest := by
  simp only [takeMessage, bind_eq_ok_iff, map_eq_ok_iff, Prod.exists, Prod.mk.injEq] at h
  obtain ⟨hd, s1, h1, nq, s2, h2, qs, s3, h3, rfl, rfl⟩ := h
  obtain ⟨hn, hwf, rfl⟩ := takeMany_eq_ok (write := questionRecord) (fun _ _ _ h => takeQuestion_eq_ok h) h3
  refine ⟨?_, ?_⟩
  · simp only [Message.wf, Bool.and_eq_true, decide_eq_true_eq, List.all_eq_true, hn]
    exact ⟨nq.isLt, hwf⟩
  · rw [takeHeader_eq_ok h1, takeU16_eq_ok h2, messageRecord, bytes16_count_of_toNat hn]
    simp only [List.append_assoc]

theorem takeBytes_eq_ok {s rest b : Bytes} (h : takeBytes s = .ok (b, rest)) :
    b.length < 65536 ∧ s = bytesRecord b ++ rest := by
  simp only [takeBytes, bind_eq_ok_iff, Prod.exists] at h
  obtain ⟨n, s1, h1, h2⟩ := h
  obtain ⟨hn, rfl⟩ := takeN_eq_ok h2
  refine ⟨by rw [hn]; exact n.isLt, ?_⟩
  rw [takeU16_eq_ok h1, bytesRecord, bytes16_count_of_toNat hn, List.append_assoc]

theorem takeBindAnswer_eq_ok {s rest : Bytes} {a : BindAnswer} (h : takeBindAnswer s = .ok (a, rest)) :
    a.wf = true ∧ s = bindRecord a ++ rest := by
  simp only [takeBindAnswer, bind_eq_ok_iff, Prod.exists] at h
  obtain ⟨r, s1, h1, h2⟩ := h
  obtain rfl := takeU8_eq_ok h1
  split_ifs at h2 with hr hr'
  · cases h2
    subst hr
    exact ⟨rfl, rfl⟩
  · simp only [bind_eq_ok_iff, Prod.exists] at h2
    obtain ⟨c, s2, h3, h4⟩ := h2
    obtain rfl := takeU8_eq_ok h3
    split_ifs at h4 with hc
    cases h4
    subst hr'
    refine ⟨?_, by simp [bindRecord]⟩
    simp only [BindAnswer.wf, decide_eq_true_eq, ne_eq, byte_toNat_eq_zero_iff]
    exact ⟨hc, c.isLt⟩

theorem takeOutcome_eq_ok {s rest : Bytes} {o : WriteOutcome} (h : takeOutcome s = .ok (o, rest)) :
    o.wf = true ∧ s = outcomeRecord o ++ rest := by
  simp only [takeOutcome, bind_eq_ok_iff, Prod.exists] at h
  obtain ⟨r, s1, h1, h2⟩ := h
  obtain rfl := takeU8_eq_ok h1
  split_ifs at h2 with h0 h0' h0''
  · cases h2
    subst h0
    exact ⟨rfl, rfl⟩
  · simp only [map_eq_ok_iff, Prod.exists, Prod.mk.injEq] at h2
    obtain ⟨n, s2, h3, rfl, rfl⟩ := h2
    rw [takeU16_eq_ok h3]
    subst h0'
    refine ⟨?_, by simp [outcomeRecord, bytes16_count_of_toNat rfl]⟩
    simp only [WriteOutcome.wf, decide_eq_true_eq]
    exact n.isLt
  · cases h2
    subst h0''
    exact ⟨rfl, rfl⟩

end Sys2Proof
end

