-- ==== Sys2Proof/Laws/PerInstr.lean ====
section
/-! SUPPORT. A fact of every instruction as syntax: its record begins with its operation code, which is a code of
30_encoding.md R85 (R83). -/

namespace Sys2Proof.Laws.OpcodeByte

/-- The operation codes of R85. -/
def codes : List Byte := [0x01#8, 0x02#8, 0x03#8, 0x10#8, 0x11#8, 0x12#8, 0x20#8, 0x21#8, 0x30#8]

def Statement (i : Instr) : Prop :=
  (encodeRecord i).head? = some i.code ∧ i.code ∈ codes

theorem decode (input : Bytes) : Statement (.decode input) := by simp [Statement, encodeRecord, Instr.code, codes]
theorem encode (m : Message) : Statement (.encode m) := by simp [Statement, encodeRecord, Instr.code, codes]
theorem buildReply (q : Message) : Statement (.buildReply q) := by simp [Statement, encodeRecord, Instr.code, codes]
theorem bind (answer : BindAnswer) : Statement (.bind answer) := by simp [Statement, encodeRecord, Instr.code, codes]
theorem recv (peer : Nat) (payload : Bytes) : Statement (.recv peer payload) := by
  simp [Statement, encodeRecord, Instr.code, codes]
theorem recvFail : Statement .recvFail := by simp [Statement, encodeRecord, Instr.code, codes]
theorem handle (h : Nat) : Statement (.handle h) := by simp [Statement, encodeRecord, Instr.code, codes]
theorem send (h : Nat) (o : WriteOutcome) : Statement (.send h o) := by
  simp [Statement, encodeRecord, Instr.code, codes]
theorem stop : Statement .stop := by simp [Statement, encodeRecord, Instr.code, codes]

end Sys2Proof.Laws.OpcodeByte
end

