-- ==== Sys2Proof/Tests/Slice0.lean ====
section
/-! SUPPORT. The model's own tests: ill-formed instructions, records written out from 30_encoding.md R85 and R86, one
step of each operation against 95_test_vectors.md, and a witness for the hypotheses of every statement. -/

namespace Sys2Proof.Machine.Tests

/-! ## Helpers -/

/-- The answer is a next state of which `p` holds. -/
def answers (a : Answer) (p : State → Bool) : Bool :=
  match a with
  | .next t => p t
  | .fault _ => false
  | .refused _ => false

theorem next_of_answers {a : Answer} {p : State → Bool} (h : answers a p = true) : ∃ t, a = .next t ∧ p t = true := by
  cases a with
  | next t => exact ⟨t, rfl, h⟩
  | fault e => cases h
  | refused e => cases h

/-- A mover in the sense of `Takes`, found by evaluation. -/
theorem takes_of_answers {i : Instr} {s : State} (h : answers (exec i s) (fun t => t.verdict == .moved) = true) :
    ∃ t, Takes i s t := by
  obtain ⟨t, ht, hv⟩ := next_of_answers h
  exact ⟨t, ht, by simpa using hv⟩

def peerA : Addr := ⟨10⟩
def peerB : Addr := ⟨11⟩

/-- The 29-byte query `ex` of V1. -/
def ex : Bytes :=
  [0x12, 0x34, 0x01, 0x00, 0x00, 0x01, 0x00, 0x00, 0x00, 0x00, 0x00, 0x00, 0x07, 0x65, 0x78, 0x61, 0x6d, 0x70, 0x6c,
    0x65, 0x03, 0x63, 0x6f, 0x6d, 0x00, 0x00, 0x01, 0x00, 0x01]

/-- The reply to `ex` (V2). -/
def exReply : Bytes :=
  [0x12, 0x34, 0x81, 0x03, 0x00, 0x01, 0x00, 0x00, 0x00, 0x00, 0x00, 0x00, 0x07, 0x65, 0x78, 0x61, 0x6d, 0x70, 0x6c,
    0x65, 0x03, 0x63, 0x6f, 0x6d, 0x00, 0x00, 0x01, 0x00, 0x01]

/-- The message of `ex` (V1). -/
def exMessage : Message where
  header := { id := 0x1234, flags := 0x0100, qdcount := 1, ancount := 0, nscount := 0, arcount := 0 }
  questions :=
    [{ labels := [Label.ofBytes [0x65, 0x78, 0x61, 0x6d, 0x70, 0x6c, 0x65], Label.ofBytes [0x63, 0x6f, 0x6d]]
       qtype := 1
       qclass := 1 }]

/-- "After BIND ok" of 95_test_vectors.md, with peers A and B. -/
def bound : State :=
  { State.reset with phase := .running, sock := .bound ⟨0⟩ 3030#16, trace := [.bound], peers := [peerA, peerB] }

/-- After `RECV A, d` with handler 0 in a stage. -/
def live (d : Bytes) (stage : Stage) : State :=
  { bound with
    handlers := [(0, { peer := peerA, payload := d, stage := stage })]
    nextId := 1
    trace := [.bound, .rx 0 peerA d] }

/-- Two live handlers: 0 pending, 1 ready. -/
def twoLive : State :=
  { bound with
    handlers := [(0, { peer := peerA, payload := ex, stage := .pending exReply }),
      (1, { peer := peerB, payload := ex, stage := .ready })]
    nextId := 2
    trace := [.bound, .rx 0 peerA ex, .rx 1 peerB ex] }

def filtering (s : State) : State := { s with cfg := { s.cfg with classFilter := true } }

def limited (k : Nat) (s : State) : State := { s with cfg := { s.cfg with inflightLimit := some k } }

/-! ## Ill-formed instructions, one for each check of WellFormed -/

/-- 65536 is one more than a u16 count can say. -/
theorem test_wf_decode_too_long : (Instr.decode (List.replicate 65536 0#8)).wf = false := by
  simp only [Instr.wf, List.length_replicate]
  rfl

theorem test_wf_recv_too_long : (Instr.recv 0 (List.replicate 65536 0#8)).wf = false := by
  simp only [Instr.wf, List.length_replicate]
  rfl

theorem test_wf_bind_zero_code : (Instr.bind (.failure 0)).wf = false := by decide

/-- Numbers one above what their u8 or u16 can say. -/
theorem test_wf_wide_operands :
    (Instr.bind (.failure 256)).wf = false ∧ (Instr.recv 256 []).wf = false ∧ (Instr.handle 65536).wf = false ∧
      (Instr.send 65536 .ok).wf = false ∧ (Instr.send 0 (.short 65536)).wf = false := by
  decide

theorem test_wf_too_many_questions :
    (Instr.encode { exMessage with questions := List.replicate 65536 { labels := [], qtype := 0, qclass := 0 } }).wf =
      false := by
  simp only [Instr.wf, Message.wf, List.length_replicate]
  rfl

theorem test_wf_too_many_labels :
    (Instr.buildReply { exMessage with
      questions := [{ labels := List.replicate 65536 (Label.ofBytes []), qtype := 0, qclass := 0 }] }).wf = false := by
  simp only [Instr.wf, Message.wf, Question.wf, List.all_cons, List.length_replicate]
  rfl

/-! ## Records, byte by byte from R85 and R86 -/

theorem test_record_decode : decodeRecord [0x01, 0x00, 0x02, 0xaa, 0xbb, 0x99] = .ok (.decode [0xaa, 0xbb], [0x99]) := by
  decide

/-- The message operand of V23. -/
theorem test_record_encode :
    decodeRecord
        [0x02, 0x00, 0x09, 0x00, 0x00, 0x00, 0x01, 0x00, 0x00, 0x00, 0x00, 0x00, 0x00, 0x00, 0x01, 0x00, 0x03, 0x01,
          0x61, 0x00, 0x01, 0x62, 0x00, 0x01, 0x00, 0x01] =
      .ok (.encode
        { header := { id := 9, flags := 0, qdcount := 1, ancount := 0, nscount := 0, arcount := 0 }
          questions :=
            [{ labels := [Label.ofBytes [0x61], Label.ofBytes [], Label.ofBytes [0x62]], qtype := 1, qclass := 1 }] },
        []) := by
  decide

/-- A message operand whose six header fields, qtype and qclass all differ. -/
theorem test_record_buildReply :
    decodeRecord
        [0x03, 0x01, 0x02, 0x03, 0x04, 0x05, 0x06, 0x07, 0x08, 0x09, 0x0a, 0x0b, 0x0c, 0x00, 0x01, 0x00, 0x00, 0x0d,
          0x0e, 0x0f, 0x10] =
      .ok (.buildReply
        { header :=
            { id := 0x0102, flags := 0x0304, qdcount := 0x0506, ancount := 0x0708, nscount := 0x090a, arcount := 0x0b0c }
          questions := [{ labels := [], qtype := 0x0d0e, qclass := 0x0f10 }] }, []) := by
  decide

theorem test_record_bind :
    decodeRecord [0x10, 0x00] = .ok (.bind .success, []) ∧
      decodeRecord [0x10, 0x01, 0x07] = .ok (.bind (.failure 7), []) := by
  decide

theorem test_record_recv : decodeRecord [0x11, 0x05, 0x00, 0x01, 0xcc] = .ok (.recv 5 [0xcc], []) := by decide

theorem test_record_recvFail : decodeRecord [0x12] = .ok (.recvFail, []) := by decide

theorem test_record_handle : decodeRecord [0x20, 0x01, 0x02] = .ok (.handle 0x0102, []) := by decide

theorem test_record_send :
    decodeRecord [0x21, 0x00, 0x03, 0x00] = .ok (.send 3 .ok, []) ∧
      decodeRecord [0x21, 0x00, 0x03, 0x01, 0x01, 0x02] = .ok (.send 3 (.short 0x0102), []) ∧
      decodeRecord [0x21, 0x00, 0x03, 0x02] = .ok (.send 3 .error, []) := by
  decide

theorem test_record_stop : decodeRecord [0x30] = .ok (.stop, []) := by decide

/-- A table word of one byte with operands of zeros decodes, and runs as the first operation after reset. -/
theorem test_table_words :
    ([0x01, 0x02, 0x03, 0x10, 0x11, 0x12, 0x20, 0x21, 0x30].all fun w =>
      (decodeTableWord 8 w).isSome && answers (step (State.reset.withFetchWord 8 w)) fun _ => true) = true := by
  decide

/-! ## One step of each operation -/

/-- V17: every flag set, lying counts, the root name, trailing bytes. -/
theorem test_decode_V17 :
    answers
      (exec (.decode
        [0x55, 0x55, 0xff, 0xff, 0x00, 0x01, 0x00, 0x05, 0xff, 0xff, 0x00, 0x01, 0x00, 0x00, 0xff, 0x00, 0xff, 0xde,
          0xad, 0xbe, 0xef]) bound)
      (fun t => t.port.status == some 0 && t.port.out == some (.message
        { header := { id := 0x5555, flags := 0xffff, qdcount := 1, ancount := 5, nscount := 0xffff, arcount := 1 }
          questions := [{ labels := [], qtype := 255, qclass := 255 }] })) = true := by
  decide

/-- V19: a compression pointer is a plain length. -/
theorem test_decode_V19 :
    answers
      (exec (.decode
        [0xbe, 0xef, 0x01, 0x00, 0x00, 0x01, 0x00, 0x00, 0x00, 0x00, 0x00, 0x00, 0xc0, 0x0c, 0x00, 0x01, 0x00, 0x01])
        bound)
      (fun t => t.port.cmd == some 1 && t.port.status == some 1 && t.port.out == none) = true := by
  decide

/-- V25: `qdcount` 0 with one question present. -/
theorem test_encode_V25 :
    answers
      (exec (.encode
        { header := { id := 0x2222, flags := 0, qdcount := 0, ancount := 0, nscount := 0, arcount := 0 }
          questions := [{ labels := [Label.ofBytes [0x63, 0x6f, 0x6d]], qtype := 1, qclass := 1 }] }) bound)
      (fun t => t.port.out == some (.bytes
        [0x22, 0x22, 0x00, 0x00, 0x00, 0x00, 0x00, 0x00, 0x00, 0x00, 0x00, 0x00, 0x03, 0x63, 0x6f, 0x6d, 0x00, 0x00,
          0x01, 0x00, 0x01])) = true := by
  decide

/-- V27: the counts and all flags bits are written as held. -/
theorem test_encode_V27 :
    answers
      (exec (.encode
        { header := { id := 0x4444, flags := 0x8183, qdcount := 1, ancount := 1, nscount := 2, arcount := 3 }
          questions := [{ labels := [Label.ofBytes [0x61]], qtype := 1, qclass := 1 }] }) bound)
      (fun t => t.port.out == some (.bytes
        [0x44, 0x44, 0x81, 0x83, 0x00, 0x01, 0x00, 0x01, 0x00, 0x02, 0x00, 0x03, 0x01, 0x61, 0x00, 0x00, 0x01, 0x00,
          0x01])) = true := by
  decide

def threeClasses : Message where
  header := { id := 7, flags := 0, qdcount := 3, ancount := 0, nscount := 0, arcount := 0 }
  questions :=
    [{ labels := [Label.ofBytes [0x61]], qtype := 1, qclass := 1 },
      { labels := [Label.ofBytes [0x62]], qtype := 1, qclass := 3 },
      { labels := [Label.ofBytes [0x63]], qtype := 1, qclass := 255 }]

/-- V34: every unnamed flags bit set in the query. -/
theorem test_buildReply_V34 :
    answers (exec (.buildReply { exMessage with header := { exMessage.header with flags := 0x7ef0 } }) bound)
      (fun t => t.port.out == some (.message
        { exMessage with header := { exMessage.header with flags := 0x8003 } })) = true := by
  decide

/-- V38: the class filter. -/
theorem test_buildReply_V38 :
    answers (exec (.buildReply threeClasses) (filtering bound))
      (fun t => t.port.out == some (.message
        { header := { id := 7, flags := 0x8003, qdcount := 2, ancount := 0, nscount := 0, arcount := 0 }
          questions :=
            [{ labels := [Label.ofBytes [0x61]], qtype := 1, qclass := 1 },
              { labels := [Label.ofBytes [0x63]], qtype := 1, qclass := 255 }] })) = true := by
  decide

/-- `BIND ok` from reset (R160). -/
theorem test_bind_ok :
    answers (exec (.bind .success) State.reset)
      (fun t => t.phase == .running && t.sock == .bound ⟨0⟩ 3030#16 && t.trace == [.bound]) = true := by
  decide

/-- V40. -/
theorem test_bind_fail :
    answers (exec (.bind (.failure 1)) State.reset)
      (fun t => t.phase == .terminated && t.exit == some 1 && t.trace == [.fatal 1] &&
        t.diag.map LogEvent.kind == [.bindFail]) = true := by
  decide

/-- V42: a datagram of 5 bytes is accepted. -/
theorem test_recv_short_datagram :
    answers (exec (.recv 0 [1, 2, 3, 4, 5]) bound)
      (fun t => t.handlers == [(0, { peer := peerA, payload := [1, 2, 3, 4, 5], stage := .ready })] && t.nextId == 1 &&
        t.trace == [.bound, .rx 0 peerA [1, 2, 3, 4, 5]]) = true := by
  decide

/-- V45: over the in-flight limit. -/
theorem test_recv_over_limit :
    answers (exec (.recv 1 ex) (limited 1 (live ex .ready)))
      (fun t => t.trace == [.bound, .rx 0 peerA ex, .reject peerB ex] && t.nextId == 1 && t.handlers.length == 1) =
      true := by
  decide

/-- V44. -/
theorem test_recvFail :
    answers (exec .recvFail bound)
      (fun t => t.trace == [.bound, .rxFail] && t.diag.map LogEvent.kind == [.recvFail]) = true := by
  decide

/-- V2 through HANDLE (R170). -/
theorem test_handle_reply :
    answers (exec (.handle 0) (live ex .ready))
      (fun t => t.handlers == [(0, { peer := peerA, payload := ex, stage := .pending exReply })]) = true := by
  decide

/-- V42. -/
theorem test_handle_drop :
    answers (exec (.handle 0) (live [1, 2, 3, 4, 5] .ready))
      (fun t => t.handlers == [] && t.trace == [.bound, .rx 0 peerA [1, 2, 3, 4, 5], .drop 0] &&
        t.diag.map LogEvent.kind == [.decodeFail]) = true := by
  decide

/-- V43: a write error ends the handler. -/
theorem test_send_error :
    answers (exec (.send 0 .error) (live ex (.pending exReply)))
      (fun t => t.handlers == [] && t.trace == [.bound, .rx 0 peerA ex, .tx 0 peerA exReply .error] &&
        (t.diag.map LogEvent.kind).take 1 == [.writeFail]) = true := by
  decide

/-- V47: SEND of a Ready handler has no step. -/
theorem test_send_ready_has_no_step :
    answers (exec (.send 0 .ok) (live ex .ready))
      (fun t => t.verdict == .noStep && t.trace == [.bound, .rx 0 peerA ex] && t.handlers.length == 1) = true := by
  decide

/-- V46. -/
theorem test_stop :
    answers (exec .stop (live ex (.pending exReply)))
      (fun t => t.phase == .terminated && t.exit == none && t.handlers.length == 1 &&
        t.trace == [.bound, .rx 0 peerA ex, .stopped]) = true := by
  decide

/-! ## Witnesses: states and operands that meet the hypotheses of each statement -/

theorem witness_RecordReadsBack :
    (Instr.decode (List.replicate 65535 0#8)).wf = true ∧ (Instr.bind (.failure 1)).wf = true ∧
      (Instr.encode exMessage).wf = true ∧ (Instr.send 0xffff (.short 0xffff)).wf = true := by
  refine ⟨?_, by decide, by decide, by decide⟩
  simp only [Instr.wf, List.length_replicate]
  rfl

theorem witness_RecordReadWasWritten : decodeRecord [0x20, 0xff, 0xff, 0x30] = .ok (.handle 0xffff, [0x30]) := by decide

/-- A handler whose id no record can name takes its step from the agenda (R186), before the records of the stream. -/
def highId : State :=
  { bound with
    handlers := [(65536, { peer := peerA, payload := ex, stage := .ready })]
    nextId := 65537
    agenda := [.handle 65536]
    stream := [0x30] }

theorem test_agenda_high_id :
    answers (step highId)
      (fun t => t.handlers == [(65536, { peer := peerA, payload := ex, stage := .pending exReply })] &&
        t.agenda == [] && t.stream == [0x30] && t.phase == .running) = true := by
  decide

theorem witness_StepRunsFirstRecord :
    highId.cfg.legal = true ∧ highId.agenda = [.handle 65536] ∧ bound.agenda = [] ∧ (∃ t, Takes .recvFail bound t) ∧
      State.reset.agenda = [] ∧ State.reset.cfg.legal = true ∧ decodeRecord { State.reset with stream := [0x10, 0x00, 0x30] }.stream =
      .ok (.bind .success, [0x30]) :=
  ⟨by decide, by decide, by decide, takes_of_answers (by decide), by decide, by decide, by decide⟩

theorem witness_EmptyStreamWaits : bound.cfg.legal = true ∧ bound.agenda = [] ∧ bound.stream = [] := by decide

theorem witness_UnspelledRecords_codes :
    [0x00#8, 0x04#8, 0x0f#8, 0x13#8, 0x1f#8, 0x22#8, 0x2f#8, 0x31#8, 0xff#8].all (fun c =>
      decide (c ∉ [0x01#8, 0x02#8, 0x03#8, 0x10#8, 0x11#8, 0x12#8, 0x20#8, 0x21#8, 0x30#8])) = true := by
  decide

theorem witness_UnspelledRecords_truncated :
    (Instr.handle 0x0102).wf = true ∧ [0x20#8, 0x01#8] ++ [0x02#8] = encodeRecord (.handle 0x0102) := by
  decide

theorem witness_UnspelledRecords_outcomes : (0x02#8 < 0x03#8) ∧ (0x02#8 < 0xff#8) := by decide

theorem witness_UnspelledRecords_zero_code :
    { bound with stream := [0x10, 0x01, 0x00] }.cfg.legal = true ∧
      { bound with stream := [0x10, 0x01, 0x00] }.stream = 0x10#8 :: 0x01#8 :: 0x00#8 :: [] := by
  decide

theorem witness_UnspelledRecords_peer :
    decodeRecord [0x11, 0x02, 0x00, 0x00] = .ok (.recv 2 [], []) ∧ bound.peers.length ≤ 2 := by
  decide

theorem witness_IllegalConfiguration :
    (limited 0 bound).cfg.inflightLimit = some 0 ∧
      { bound.cfg with policy := .forwardToUpstream }.policy = .forwardToUpstream ∧
      (limited 1 bound).cfg.policy = .stubNameError ∧ (limited 1 bound).cfg.inflightLimit ≠ some 0 := by
  decide

/-- For the three codec commands, in Boot and in Running; for the pseudo-operations. -/
theorem witness_CodecCommands :
    State.reset.cfg.legal = true ∧ State.reset.phase ≠ .terminated ∧ bound.cfg.legal = true ∧
      bound.phase ≠ .terminated := by
  decide

theorem witness_DecodedMessage :
    decodeMessage ex = .ok exMessage ∧ decodeAt ex = .ok (exMessage, 29) ∧ 29 ≤ ex.length := by
  decide

theorem witness_RoundTripRestoresMessage :
    (∀ q ∈ exMessage.questions, ∀ l ∈ q.labels, 1 ≤ l.bytes.length ∧ l.bytes.length ≤ 255) ∧
      exMessage.header.qdcount.toNat = exMessage.questions.length := by
  decide

/-- V26: a label of 255 bytes. -/
theorem witness_RoundTrip_longest_label :
    1 ≤ (Label.ofBytes (List.replicate 255 0x7a#8)).bytes.length ∧
      (Label.ofBytes (List.replicate 255 0x7a#8)).bytes.length ≤ 255 := by
  simp only [Label.ofBytes, List.length_take, List.length_replicate]
  decide

theorem witness_DecodeFailsOnlyByUnderrun :
    decodeMessage [] = .err .malformedMessage ∧ decodeMessage (ex.take 28) = .err .malformedMessage := by
  decide

theorem witness_ShortInputs :
    (ex.take 11).length < 12 ∧ exMessage.questions.length < { exMessage.header with qdcount := 2 }.qdcount.toNat ∧
      (∀ q ∈ exMessage.questions, ∀ l ∈ q.labels, 1 ≤ l.bytes.length) ∧
      ([] : Bytes).length < (1#8).toNat ∧ (List.replicate 254 0#8).length < (255#8).toNat ∧
      [0#8, 0#8, 0#8].length < 4 := by
  refine ⟨by decide, by decide, by decide, by decide, ?_, by decide⟩
  simp only [List.length_replicate]
  decide

/-- `qdcount` equal to the number of questions, one below it and one above it. -/
theorem witness_WrongCounts :
    (∀ q ∈ threeClasses.questions, ∀ l ∈ q.labels, 1 ≤ l.bytes.length) ∧
      threeClasses.header.qdcount.toNat = threeClasses.questions.length ∧
      { threeClasses.header with qdcount := 2 }.qdcount.toNat ≤ threeClasses.questions.length ∧
      ¬ { threeClasses.header with qdcount := 4 }.qdcount.toNat ≤ threeClasses.questions.length := by
  decide

/-- V23: the label list `a`, empty, `b`. -/
theorem witness_EmptyLabels :
    ∃ q ∈ [({ labels := [Label.ofBytes [0x61], Label.ofBytes [], Label.ofBytes [0x62]], qtype := 1, qclass := 1 } :
      Question)], ∃ l ∈ q.labels, l.bytes = [] := by
  decide

theorem witness_ReplyQuestions :
    bound.cfg.classFilter = false ∧ decodeAt ex = .ok (exMessage, 29) ∧ (filtering bound).cfg.classFilter = true ∧
      threeClasses.questions.length < 65536 := by
  decide

theorem witness_Reply_unnamed_bits :
    ((9 ≤ 9 ∧ 9 ≤ 14) ∨ (4 ≤ 9 ∧ 9 ≤ 7)) ∧ ((9 ≤ 14 ∧ 14 ≤ 14) ∨ (4 ≤ 14 ∧ 14 ≤ 7)) ∧
      ((9 ≤ 4 ∧ 4 ≤ 14) ∨ (4 ≤ 4 ∧ 4 ≤ 7)) ∧ ((9 ≤ 7 ∧ 7 ≤ 14) ∨ (4 ≤ 7 ∧ 7 ≤ 7)) := by
  decide

theorem witness_Bind :
    State.reset.cfg.legal = true ∧ State.reset.phase = .boot ∧ State.reset.sock = .unbound ∧ (1 : Nat) ≠ 0 := by
  decide

theorem witness_RecvSpawns :
    bound.cfg.legal = true ∧ bound.phase = .running ∧ bound.peers[1]? = some peerB ∧
      ex.length ≤ bound.cfg.rxMax ∧ bound.cfg.inflightLimit = none := by
  decide

/-- At the limit, and one below it. -/
theorem witness_RecvLimit :
    (limited 1 (live ex .ready)).cfg.legal = true ∧ (limited 1 (live ex .ready)).cfg.inflightLimit = some 1 ∧
      1 ≤ (limited 1 (live ex .ready)).handlers.length ∧ (limited 2 (live ex .ready)).handlers.length < 2 := by
  decide

theorem witness_HandleMakesReply :
    (live ex .ready).cfg.legal = true ∧ (live ex .ready).phase = .running ∧
      (live ex .ready).handlers.get? 0 = some { peer := peerA, payload := ex, stage := .ready } ∧
      decodeMessage ex = .ok exMessage := by
  decide

theorem witness_HandleDrops :
    (live [] .ready).handlers.get? 0 = some { peer := peerA, payload := [], stage := .ready } ∧
      (live [] .ready).cfg.legal = true ∧ (live [] .ready).phase = .running ∧
      decodeMessage [] = .err .malformedMessage := by
  decide

/-- `Short(28)` of a write of 29 bytes, the longest short write, and `Short(29)`, which has no step. -/
theorem witness_Send :
    (live ex (.pending exReply)).cfg.legal = true ∧ (live ex (.pending exReply)).phase = .running ∧
      (live ex (.pending exReply)).handlers.get? 0 =
        some { peer := peerA, payload := ex, stage := .pending exReply } ∧
      28 < exReply.length ∧ exReply.length ≤ 29 := by
  decide

theorem witness_Stop :
    bound.cfg.legal = true ∧ bound.phase ≠ .terminated ∧
      { bound with phase := .terminated }.phase = .terminated := by
  decide

theorem witness_NoStepOutsideRunning :
    State.reset.cfg.legal = true ∧ State.reset.phase ≠ .running ∧ 1 < { State.reset with peers := [peerA, peerB] }.peers.length ∧
      { bound with phase := .terminated }.phase ≠ .running := by
  decide

theorem witness_NoStepWithoutPrecondition :
    { bound with cfg := { bound.cfg with rxMax := 28 } }.cfg.legal = true ∧
      { bound with cfg := { bound.cfg with rxMax := 28 } }.phase = .running ∧
      { bound.cfg with rxMax := 28 }.rxMax < ex.length ∧ bound.handlers.get? 9 = none ∧
      twoLive.cfg.legal = true ∧ twoLive.phase = .running ∧
      (twoLive.handlers.get? 0).map Handler.stage = some (.pending exReply) ∧
      (twoLive.handlers.get? 1).map Handler.stage = some .ready := by
  decide

/-- For the statements about a step: an operation of each kind of effect is the first record. -/
theorem witness_Steps :
    answers (step { live ex .ready with stream := [0x20, 0x00, 0x00] }) (fun t => t.verdict == .moved) = true ∧
      answers (step { bound with stream := [0x11, 0x01, 0x00, 0x00] }) (fun t => t.nextId == 1) = true ∧
      answers (step { bound with stream := [0x30] }) (fun t => t.phase == .terminated) = true ∧
      answers (step { bound with stream := [0x12] }) (fun t => t.trace == [.bound, .rxFail]) = true ∧
      answers (step { State.reset with stream := [0x10, 0x00] }) (fun t => t.phase == .running) = true ∧
      answers (step { State.reset with stream := [0x10, 0x01, 0x07] }) (fun t => t.exit == some 7) = true ∧
      answers (step { bound with phase := .terminated, stream := [0x30] }) (fun t => t.verdict == .noStep) = true := by
  decide

theorem witness_CommandsAndSteps :
    CodecOp (.decode ex) ∧ ¬ CodecOp .recvFail ∧
      answers (exec (.decode ex) bound) (fun t => t.verdict == .moved) = true ∧
      answers (exec .recvFail bound) (fun t => t.verdict == .moved) = true :=
  ⟨.decode ex, fun h => (nomatch h), by decide, by decide⟩

theorem witness_TableInv : TableInv twoLive := by
  refine ⟨by decide, fun h r hg => ?_⟩
  simp only [twoLive, HandlerTable.get?] at hg ⊢
  split_ifs at hg <;> omega

theorem witness_HandlersAreIsolated :
    TableInv twoLive ∧ twoLive.handlers.get? 1 = some { peer := peerB, payload := ex, stage := .ready } ∧
      answers (step { twoLive with stream := [0x20, 0x00, 0x01] }) (fun t => t.verdict == .moved) = true :=
  ⟨witness_TableInv, by decide, by decide⟩

/-- Two states that differ in peer, id, other handlers and trace, and agree on the payload. -/
theorem witness_ReplyDependsOnPayloadOnly :
    twoLive.cfg = (live ex .ready).cfg ∧
      twoLive.handlers.get? 1 = some { peer := peerB, payload := ex, stage := .ready } ∧
      (live ex .ready).handlers.get? 0 = some { peer := peerA, payload := ex, stage := .ready } ∧
      (∃ t, Takes (.handle 1) twoLive t) ∧ ∃ t, Takes (.handle 0) (live ex .ready) t :=
  ⟨rfl, by decide, by decide, takes_of_answers (by decide), takes_of_answers (by decide)⟩

theorem witness_HandlerStepsCommute :
    twoLive.handlers.wf ∧ (0 : Nat) ≠ 1 ∧ HandlerOp 0 (.send 0 .ok) ∧ HandlerOp 1 (.handle 1) ∧
      (∃ a, Takes (.send 0 .ok) twoLive a) ∧ ∃ b, Takes (.handle 1) twoLive b :=
  ⟨by decide, by decide, .send _, .handle, takes_of_answers (by decide), takes_of_answers (by decide)⟩

theorem witness_Starts : Starts { State.reset with stream := [0x10, 0x00], peers := [peerA] } := ⟨_, _, _, _, rfl⟩

theorem witness_PhaseInv :
    PhaseInv bound ∧ answers (step { bound with stream := [0x30] }) (fun t => t.verdict == .moved) = true := by
  refine ⟨⟨by decide, by decide, fun c hc => ?_⟩, by decide⟩
  cases hc

theorem witness_SizeInv :
    SizeInv (live ex (.pending exReply)) ∧
      answers (step { live ex (.pending exReply) with stream := [0x21, 0x00, 0x00, 0x00] })
        (fun t => t.verdict == .moved) = true := by
  refine ⟨⟨by decide, fun h r hg => ?_⟩, by decide⟩
  simp only [live, HandlerTable.get?] at hg
  split_ifs at hg
  cases hg
  exact ⟨by decide, fun b hb => by cases hb; decide⟩

/-- A trace of `Bound` and one other event holds that event at its end only. -/
theorem split_after_bound {pre post : List Event} {e x : Event} (hx : x ≠ .bound)
    (h : [.bound, e] = pre ++ x :: post) : pre = [.bound] ∧ x = e ∧ post = [] := by
  rcases pre with _ | ⟨p, _ | ⟨q, pre⟩⟩ <;> simp at h
  · exact absurd h.1.symm hx
  · obtain ⟨rfl, rfl, rfl⟩ := h
    exact ⟨rfl, rfl, rfl⟩

theorem witness_FlowInv :
    FlowInv (live ex .ready) ∧
      answers (step { live ex .ready with stream := [0x20, 0x00, 0x00] }) (fun t => t.verdict == .moved) = true := by
  refine ⟨⟨⟨by decide, fun h r hg => ?_⟩, fun h a d hm => ?_, fun pre post h a d hs => ?_, fun h r hg => ?_,
    fun h a d hm hg => ?_, fun pre post h a b o hs => ?_, fun pre post h hs => ?_⟩, by decide⟩
  · simp only [live, HandlerTable.get?] at hg ⊢
    split_ifs at hg
    omega
  · simp [live] at hm ⊢
    omega
  · obtain ⟨rfl, -, rfl⟩ := split_after_bound (by simp) hs
    simp [Event.Opens]
  · simp only [live, HandlerTable.get?] at hg
    split_ifs at hg with hh
    cases hg
    subst hh
    simp [live, Event.Ends]
  · simp [live] at hm
    obtain ⟨rfl, -, -⟩ := hm
    simp [live, HandlerTable.get?] at hg
  · obtain ⟨-, hx, -⟩ := split_after_bound (by simp) hs
    cases hx
  · obtain ⟨-, hx, -⟩ := split_after_bound (by simp) hs
    cases hx

/-- A reachable state that has written a reply: one step after another from a start. -/
theorem reachable_run {n : Nat} {s t : State} (hs : Reachable s) (h : Host.Core.run core n s = .next t) :
    Reachable t := by
  induction n generalizing s with
  | zero =>
    cases h
    exact hs
  | succ n ih =>
    simp only [Host.Core.run] at h
    cases hstep : core.step s with
    | next u =>
      rw [hstep] at h
      exact ih (.turn hs ⟨[], [], [], (congrArg step (given_nil s)).trans hstep⟩) h
    | fault e => rw [hstep] at h; cases h
    | refused e => rw [hstep] at h; cases h

/-- The program P1 without its STOP. -/
def programP1 : State :=
  { State.reset with
    stream := [0x10, 0x00, 0x11, 0x00, 0x00, 0x1d] ++ ex ++ [0x20, 0x00, 0x00, 0x21, 0x00, 0x00, 0x00]
    peers := [peerA] }

theorem witness_Reachable :
    ∃ s, Reachable s ∧ s.trace = [.bound, .rx 0 peerA ex, .tx 0 peerA exReply .ok] := by
  have h : answers (Host.Core.run core 4 programP1)
      (fun t => t.trace == [.bound, .rx 0 peerA ex, .tx 0 peerA exReply .ok]) = true := by decide
  obtain ⟨t, ht, hp⟩ := next_of_answers h
  exact ⟨t, reachable_run (.start ⟨_, _, _, _, rfl⟩) ht, by simpa using hp⟩

/-- A fair run with a live handler: the reply of handler 0 is written, then the machine waits for ever. -/
theorem witness_FairRun :
    ∃ (state : Nat → State) (r : Handler), Run state ∧ Fair state ∧ (state 0).handlers.get? 0 = some r := by
  let start : State := { live ex (.pending exReply) with agenda := [.send 0 .ok] }
  have h : answers (step start)
      (fun t => t.handlers == [] && t.agenda == [] && t.stream == [] && t.verdict == .moved && t.cfg.legal) = true := by
    decide
  obtain ⟨t, ht, hp⟩ := next_of_answers h
  simp only [Bool.and_eq_true, beq_iff_eq] at hp
  obtain ⟨⟨⟨⟨hh, hag⟩, hst⟩, hv⟩, hl⟩ := hp
  have hfetch : start.fetch = .ok (some (.send 0 .ok, start.withAgenda [])) := rfl
  have hwait : ∀ v, Turn (t.mark v) (t.mark .waits) := fun v =>
    ⟨[], [], [], by rw [given_nil]; exact step_of_fetch_none hl (fetch_eq_none_iff.2 ⟨hag, hst⟩)⟩
  refine ⟨fun n => match n with
    | 0 => start
    | 1 => t
    | _ + 2 => t.mark .waits, _, ?_, ?_, rfl⟩
  · intro n
    match n with
    | 0 => exact ⟨[], [], [], by rw [given_nil]; exact ht⟩
    | 1 => exact hwait t.verdict
    | _ + 2 => exact hwait .waits
  · intro n h r hg
    match n with
    | 0 =>
      refine ⟨0, le_rfl, .inr ?_⟩
      simp only [start, live, HandlerTable.get?] at hg
      split_ifs at hg with hk
      cases hg
      subst hk
      refine ⟨.ok, [], [], [], start.withAgenda [], ?_, ?_, hv⟩
      · rw [given_nil]; exact hfetch
      · rw [← step_of_fetch (by decide) hfetch]; exact ht
    | 1 => simp [hh, HandlerTable.get?] at hg
    | _ + 2 => simp [hh, HandlerTable.get?] at hg

end Sys2Proof.Machine.Tests
end

