-- ==== Sys2Proof/Proofs/Word.lean ====
section
/-! Big-endian fields (R12, R52): the two bytes of a field are its quotient and remainder by 256. -/

namespace Sys2Proof

theorem be16_toNat_div (hi lo : Byte) : (be16 hi lo).toNat / 256 = hi.toNat := by
  have hlo := lo.isLt
  rw [be16_toNat]
  omega

theorem be16_toNat_mod (hi lo : Byte) : (be16 hi lo).toNat % 256 = lo.toNat := by
  have hlo := lo.isLt
  rw [be16_toNat]
  omega

/-- Every field is assembled from two bytes, the ones `bytes16` writes. -/
theorem exists_eq_be16 (v : U16) : ∃ hi lo, v = be16 hi lo :=
  ⟨_, _, (be16_of_bytes16 v).symm⟩

/-- Settles O12: assembly is by the value of `be16`, and every field is a `be16`, so its bytes are read off there. -/
theorem fieldsAreBigEndian : Obligations.FieldsAreBigEndian := by
  unfold Obligations.FieldsAreBigEndian
  refine ⟨fun hi lo => ⟨be16_toNat hi lo, bytes16_be16 hi lo⟩, fun v => ?_⟩
  obtain ⟨hi, lo, rfl⟩ := exists_eq_be16 v
  exact ⟨hi, lo, bytes16_be16 hi lo, (be16_toNat_div hi lo).symm, (be16_toNat_mod hi lo).symm, rfl⟩

end Sys2Proof
end

