-- ==== Sys2Proof/Proofs/Phase.lean ====
section
/-! The phase (R34): what BIND and STOP set it to, that no other operation changes it, and that fetching an operation
leaves phase and socket as they were. -/

namespace Sys2Proof.Machine

/-! ## Fetching -/

theorem fetch_keeps_phase {s u : State} {i : Instr} (h : s.fetch = .ok (some (i, u))) : u.phase = s.phase := by
  obtain ⟨agenda, stream, rfl⟩ := fetch_rest h
  rfl

theorem fetch_keeps_sock {s u : State} {i : Instr} (h : s.fetch = .ok (some (i, u))) : u.sock = s.sock := by
  obtain ⟨agenda, stream, rfl⟩ := fetch_rest h
  rfl

/-- A step that fetches an operation is a run of that operation. -/
theorem exec_of_step_of_fetch {s u t : State} {i : Instr} (hf : s.fetch = .ok (some (i, u))) (h : step s = .next t) :
    exec i u = .next t := by
  obtain ⟨hl, -⟩ := step_eq_next h
  rwa [step_of_fetch hl hf] at h

/-! ## What an operation does to the phase -/

section
variable {s t : State}

theorem exec_bindSuccess_phase (h : exec (.bind .success) s = .next t) (hp : s.phase = .boot)
    (hk : s.sock = .unbound) : t.phase = .running := by
  obtain ⟨-, h⟩ := ifLegal_eq_next_iff.1 h
  rw [if_pos ⟨hp, hk, rfl⟩, moved_eq_next_iff] at h
  rw [h]
  rfl

theorem exec_bindFailure_phase {code : Nat} (h : exec (.bind (.failure code)) s = .next t) (hp : s.phase = .boot)
    (hk : s.sock = .unbound) (hc : code ≠ 0) : t.phase = .terminated := by
  obtain ⟨-, h⟩ := ifLegal_eq_next_iff.1 h
  rw [if_pos ⟨hp, hk, by simpa [answerFits] using hc⟩, moved_eq_next_iff] at h
  rw [h]
  rfl

/-- Where STOP has no step the phase is Terminated already, so the two branches agree. -/
theorem exec_stop_phase (h : exec .stop s = .next t) : t.phase = .terminated := by
  obtain ⟨-, h⟩ := ifLegal_eq_next_iff.1 h
  split_ifs at h with hp
  · rw [noStep_eq_next_iff.1 h]
    exact hp
  · rw [moved_eq_next_iff.1 h]
    rfl

/-- Of the effects only those of BIND, which need Boot, and of STOP touch the phase. -/
theorem Effect.phase_eq {i : Instr} {u : State} (h : Effect i s u) (hstop : i ≠ .stop)
    (hbind : ¬ (s.phase = .boot ∧ ∃ answer, i = .bind answer)) : u.phase = s.phase := by
  cases h with
  | bindSuccess hp _ => exact absurd ⟨hp, _, rfl⟩ hbind
  | bindFailure _ hp _ _ => exact absurd ⟨hp, _, rfl⟩ hbind
  | stop _ => exact absurd rfl hstop
  | write => exact write_phase ..
  | command | reject | spawn | recvFail | drop | reply => rfl

theorem exec_keeps_phase {i : Instr} (h : exec i s = .next t) (hstop : i ≠ .stop)
    (hbind : ¬ (s.phase = .boot ∧ ∃ answer, i = .bind answer)) : t.phase = s.phase := by
  obtain ⟨-, rfl | ⟨u, he, rfl⟩⟩ := exec_eq_next h
  · rfl
  · exact he.phase_eq hstop hbind

/-- Terminated is final: STOP sets it again, and BIND has no step outside Boot. -/
theorem exec_keeps_terminated {i : Instr} (h : exec i s = .next t) (hp : s.phase = .terminated) :
    t.phase = .terminated := by
  by_cases hi : i = .stop
  · subst hi
    exact exec_stop_phase h
  · rw [exec_keeps_phase h hi (by simp [hp]), hp]

end

/-- Settles O45: the step runs the operation fetched, in a state with the same phase and socket, so each clause is what
that operation does to the phase. -/
theorem phaseFollowsBindAndStop : Obligations.PhaseFollowsBindAndStop := by
  unfold Obligations.PhaseFollowsBindAndStop
  refine ⟨rfl, fun s u t i hf hstep => ?_⟩
  have hexec := exec_of_step_of_fetch hf hstep
  rw [← fetch_keeps_phase hf, ← fetch_keeps_sock hf]
  refine ⟨fun hp hk => ⟨?_, ?_⟩, ?_, exec_keeps_terminated hexec, exec_keeps_phase hexec⟩
  · rintro rfl
    exact exec_bindSuccess_phase hexec hp hk
  · rintro code hc rfl
    exact exec_bindFailure_phase hexec hp hk hc
  · rintro rfl
    exact exec_stop_phase hexec

end Sys2Proof.Machine
end

