-- ==== Sys2Proof/Proofs/Malformed.lean ====
section
/-! Malformed inputs (R102, R107–R110). What the wire carries is self-delimiting: at most one header, one question and one
label begins a byte string. So DECODE succeeds only where a whole question follows the well-formed ones the header counts too
few of, and an input that breaks off inside that question is malformed. -/

namespace Sys2Proof.Machine

/-! ## What begins a byte string is determined by it -/

theorem header_eq_of_prefix {g h : Header} {b : Bytes} (hg : headerBytes g <+: b) (hh : headerBytes h <+: b) :
    g = h := by
  cases (decodeHeader_eq_ok_iff.2 ⟨rfl, hg⟩).symm.trans (decodeHeader_eq_ok_iff.2 ⟨rfl, hh⟩)
  rfl

theorem question_eq_of_prefix {q r : Question} {b : Bytes} (hq : q.OnWire) (hr : r.OnWire)
    (hqb : encodeQuestion q <+: b) (hrb : encodeQuestion r <+: b) : q = r := by
  have hqread : decodeQuestion b 0 = .ok (q, _) := decodeQuestion_eq_ok_iff.2 ⟨hq, rfl, hqb⟩
  have hrread : decodeQuestion b 0 = .ok (r, _) := decodeQuestion_eq_ok_iff.2 ⟨hr, rfl, hrb⟩
  cases hqread.symm.trans hrread
  rfl

theorem labelRecord_append_inj {k l : Label} {a b : Bytes} (h : labelRecord k ++ a = labelRecord l ++ b) :
    k = l ∧ a = b := by
  have hread := takeLabel_labelRecord k a
  rw [h, takeLabel_labelRecord] at hread
  cases hread
  exact ⟨rfl, rfl⟩

/-- The first byte of a label is its length (R75), so it claims no more bytes than follow it. -/
theorem length_of_labelRecord_prefix {l : Label} {n : Byte} {t : Bytes} (h : labelRecord l <+: n :: t) :
    n.toNat = l.bytes.length ∧ l.bytes.length ≤ t.length := by
  obtain ⟨rfl, hbody⟩ := List.cons_prefix_cons.1 h
  exact ⟨ofNat8_toNat l.fits, hbody.length_le⟩

/-! ## What follows a well-formed part -/

/-- Labels that begin a byte string are the first labels of every name that begins it. -/
theorem exists_labels_after {labels ls : List Label} {rest : Bytes} (hok : ∀ l ∈ labels, 1 ≤ l.bytes.length)
    (h : encodeName ls <+: labels.flatMap labelRecord ++ rest) :
    ∃ more, encodeName ls = labels.flatMap labelRecord ++ encodeName more := by
  induction labels generalizing ls with
  | nil => exact ⟨ls, rfl⟩
  | cons l labels ih =>
    obtain ⟨t, h⟩ := h
    rw [List.flatMap_cons, List.append_assoc] at h
    cases ls with
    | nil =>
      have hzero : 0x00#8 = BitVec.ofNat 8 l.bytes.length := (List.cons.inj h).1
      have hlen := ofNat8_toNat l.fits
      rw [← hzero] at hlen
      exact absurd (hok l List.mem_cons_self) (by simp [← hlen])
    | cons k ls =>
      rw [encodeName_cons, List.append_assoc] at h
      obtain ⟨rfl, hrest⟩ := labelRecord_append_inj h
      obtain ⟨more, hmore⟩ := ih (fun x hx => hok x (List.mem_cons_of_mem _ hx)) ⟨t, hrest⟩
      exact ⟨more, by rw [encodeName_cons, hmore, List.flatMap_cons, List.append_assoc]⟩

/-- After some labels of a question there follows a question, the one with the other labels. -/
theorem exists_question_after_labels {labels : List Label} {q : Question} {rest : Bytes}
    (hok : ∀ l ∈ labels, 1 ≤ l.bytes.length) (h : encodeQuestion q <+: labels.flatMap labelRecord ++ rest) :
    ∃ r, encodeQuestion r <+: rest := by
  rw [encodeQuestion, List.append_assoc] at h
  obtain ⟨more, hmore⟩ := exists_labels_after hok ((List.prefix_append _ _).trans h)
  rw [hmore, List.append_assoc, List.prefix_append_right_inj, ← List.append_assoc] at h
  exact ⟨{ q with labels := more }, h⟩

/-- Questions that begin a byte string begin every longer list of questions that begins it: another question follows. -/
theorem exists_question_after_questions {qs rs : List Question} {rest : Bytes} (hqs : ∀ q ∈ qs, q.OnWire)
    (hrs : ∀ r ∈ rs, r.OnWire) (hlen : qs.length < rs.length)
    (h : rs.flatMap encodeQuestion <+: qs.flatMap encodeQuestion ++ rest) : ∃ r, encodeQuestion r <+: rest := by
  induction qs generalizing rs with
  | nil =>
    obtain ⟨r, rs, rfl⟩ := List.exists_cons_of_length_pos hlen
    exact ⟨r, (List.prefix_append _ _).trans h⟩
  | cons q qs ih =>
    obtain ⟨r, rs, rfl⟩ := List.exists_cons_of_length_pos (Nat.zero_lt_of_lt hlen)
    rw [List.forall_mem_cons] at hqs hrs
    simp only [List.flatMap_cons, List.append_assoc] at h
    obtain rfl : r = q :=
      question_eq_of_prefix hrs.1 hqs.1 ((List.prefix_append _ _).trans h) (List.prefix_append _ _)
    exact ih hqs.2 hrs.2 (Nat.lt_of_succ_lt_succ hlen) ((List.prefix_append_right_inj _).1 h)

/-! ## Where DECODE fails -/

/-- A decoded message is one the wire can carry (R115), and its encoding begins the input (R131). -/
theorem decodeMessage_sound {b : Bytes} {m : Message} (h : decodeMessage b = .ok m) :
    m.OnWire ∧ encodeMessage m <+: b := by
  obtain ⟨c, h⟩ := decodeMessage_eq_ok_iff.1 h
  simp only [decodeAt, Result.bind_eq_ok_iff, Result.map_eq_ok_iff, Prod.exists, decodeHeader_eq_ok_iff,
    decodeQuestions_eq_ok_iff, Prod.mk.injEq] at h
  obtain ⟨header, _, ⟨rfl, hheader⟩, questions, _, ⟨hcount, hok, -, hquestions⟩, rfl, -⟩ := h
  exact ⟨⟨hcount.symm, hok⟩, (append_prefix_iff _ _ _).2 ⟨hheader, hquestions⟩⟩

/-- DECODE answers a message or MalformedMessage (R81). -/
theorem decodeMessage_eq_malformed_iff {b : Bytes} :
    decodeMessage b = .err .malformedMessage ↔ ∀ m, decodeMessage b ≠ .ok m := by
  cases h : decodeMessage b with
  | ok m => simp
  | err e => simp [decodeMessage_err h]

theorem decodeMessage_of_length_lt {b : Bytes} (h : b.length < 12) :
    decodeMessage b = .err .malformedMessage := by
  refine decodeMessage_eq_malformed_iff.2 fun m hm => ?_
  obtain ⟨-, hpre⟩ := decodeMessage_sound hm
  have hlen := hpre.length_le
  rw [encodeMessage, List.length_append, headerBytes_length] at hlen
  omega

/-- The header counts more questions than `qs`, and after them and some labels of the next one stand bytes
that begin with no question. -/
theorem decodeMessage_of_broken_question {h : Header} {qs : List Question} {labels : List Label} {rest : Bytes}
    (hqs : ∀ q ∈ qs, q.OnWire) (hcount : qs.length < h.qdcount.toNat) (hok : ∀ l ∈ labels, 1 ≤ l.bytes.length)
    (hrest : ∀ q, ¬ encodeQuestion q <+: rest) :
    decodeMessage (headerBytes h ++ qs.flatMap encodeQuestion ++ labels.flatMap labelRecord ++ rest) =
      .err .malformedMessage := by
  refine decodeMessage_eq_malformed_iff.2 fun m hm => ?_
  obtain ⟨⟨hcounted, honwire⟩, hpre⟩ := decodeMessage_sound hm
  rw [encodeMessage, List.append_assoc, List.append_assoc] at hpre
  obtain rfl : m.header = h :=
    header_eq_of_prefix ((List.prefix_append _ _).trans hpre) (List.prefix_append _ _)
  obtain ⟨r, hr⟩ := exists_question_after_questions hqs honwire (hcounted ▸ hcount)
    ((List.prefix_append_right_inj _).1 hpre)
  obtain ⟨q, hq⟩ := exists_question_after_labels hok hr
  exact hrest q hq

/-! ## What begins with no question -/

/-- R107: a length byte claims more bytes than remain. -/
theorem not_encodeQuestion_prefix_of_long_label {n : Byte} {tail : Bytes} (hn : tail.length < n.toNat)
    (q : Question) : ¬ encodeQuestion q <+: n :: tail := by
  rw [encodeQuestion, List.append_assoc]
  intro hpre
  have hname := (List.prefix_append _ _).trans hpre
  cases hls : q.labels with
  | nil =>
    rw [hls, encodeName_nil, List.cons_prefix_cons] at hname
    simp [← hname.1] at hn
  | cons l ls =>
    rw [hls, encodeName_cons] at hname
    obtain ⟨hlen, hfit⟩ := length_of_labelRecord_prefix ((List.prefix_append _ _).trans hname)
    omega

/-- R108, R109: a question has a terminator and 4 bytes after it. -/
theorem not_encodeQuestion_prefix_of_length_lt {b : Bytes} (hb : b.length < 5) (q : Question) :
    ¬ encodeQuestion q <+: b := by
  intro hpre
  have hlen := hpre.length_le
  rw [encodeQuestion_length] at hlen
  omega

/-- Settles O19: in each of the three cases the rest of the input begins with no question, under R107 because of its
first byte, otherwise because it is too short. -/
theorem shortInputsAreMalformed : Obligations.ShortInputsAreMalformed := by
  unfold Obligations.ShortInputsAreMalformed
  refine ⟨fun b => decodeMessage_of_length_lt, fun h qs labels tail hqs hcount hok =>
    ⟨fun n hn => ?_, fun htail => ?_, ?_⟩⟩
  · exact decodeMessage_of_broken_question hqs hcount hok (not_encodeQuestion_prefix_of_long_label hn)
  · exact decodeMessage_of_broken_question hqs hcount hok
      (not_encodeQuestion_prefix_of_length_lt (Nat.succ_lt_succ htail))
  · rw [← List.append_nil (_ ++ labels.flatMap labelRecord)]
    exact decodeMessage_of_broken_question hqs hcount hok
      (not_encodeQuestion_prefix_of_length_lt (Nat.zero_lt_succ 4))

end Sys2Proof.Machine
end

