-- ==== Sys2Proof/Proofs/Policy.lean ====
section
/-! The reply (R140): its flags word bit by bit (R142–R144), and its question section with the class filter off
(R145). -/

namespace Sys2Proof.Machine

/-! ## The flags of a reply -/

/-- A bit of the reply's flags is a set bit of 0x8003, or bit 8 as the query has it. -/
theorem getLsbD_replyFlags (query : U16) (k : Nat) :
    (replyFlags query).getLsbD k = ((0x8003#16).getLsbD k || (decide (8 = k) && query.getLsbD k)) := by
  have hmask : (0x0100#16).getLsbD k = decide (8 = k) := BitVec.getLsbD_twoPow (w := 16) 8 k
  have hset : (0x8003#16).getLsbD k = ((0x8000#16).getLsbD k || (0x0003#16).getLsbD k) :=
    BitVec.getLsbD_or (x := 0x8000#16) (y := 0x0003#16)
  rw [replyFlags, BitVec.getLsbD_or, BitVec.getLsbD_or, BitVec.getLsbD_and, hmask, hset]
  ac_rfl

@[simp] theorem flagQR_replyFlags (query : U16) : flagQR (replyFlags query) = true :=
  getLsbD_replyFlags query 15

@[simp] theorem flagRD_replyFlags (query : U16) : flagRD (replyFlags query) = flagRD query :=
  getLsbD_replyFlags query 8

/-- RCODE lies below bit 8, so nothing of the query reaches it. -/
@[simp] theorem flagRcode_replyFlags (query : U16) :
    flagRcode (replyFlags query) = ResponseCode.nameError.value := by
  have hconst : ResponseCode.nameError.value = (0x8003#16).extractLsb' 0 4 := by decide
  rw [flagRcode, hconst]
  refine BitVec.eq_of_getLsbD_eq fun k hk => ?_
  have hne : ¬ 8 = 0 + k := by omega
  rw [BitVec.getLsbD_extractLsb', BitVec.getLsbD_extractLsb', getLsbD_replyFlags, decide_eq_false hne,
    Bool.false_and, Bool.or_false]

/-! ## The question section with the filter off -/

theorem replyQuestions_of_filter_off {cfg : Config} (q : Message) (h : cfg.classFilter = false) :
    replyQuestions cfg q = q.questions := by
  simp [replyQuestions, h]

theorem replyCount_of_filter_off {cfg : Config} (q : Message) (h : cfg.classFilter = false) :
    replyCount cfg q = q.header.qdcount := by
  simp [replyCount, h]

/-! ## The reply -/

/-- Settles O24: the flags by the lemmas on `replyFlags`, the id and the counts as BUILD_REPLY writes them. -/
theorem replyHeaderIsNameError : Obligations.ReplyHeaderIsNameError := by
  unfold Obligations.ReplyHeaderIsNameError
  exact fun cfg q =>
    ⟨rfl, flagQR_replyFlags _, flagRcode_replyFlags _, flagRD_replyFlags _, rfl, rfl, rfl⟩

/-- Settles O26: both fields pass through the filter, which is off. -/
theorem replyEchoesQuestions : Obligations.ReplyEchoesQuestions := by
  unfold Obligations.ReplyEchoesQuestions
  exact fun cfg q hoff => ⟨replyCount_of_filter_off q hoff, replyQuestions_of_filter_off q hoff⟩

end Sys2Proof.Machine
end

