-- ==== Sys2Proof/Proofs/Termination.lean ====
section
/-! What ends the process (R183): of the operations only STOP and a failed BIND leave Terminated where another phase was. -/

namespace Sys2Proof.Machine

section
variable {i : Instr} {s t : State}

/-- Only STOP, and BIND in Boot, touch the phase; of BIND's two answers a success sets it to Running. -/
theorem Effect.eq_stop_or_bindFailure (h : Effect i s t) (hs : s.phase ≠ .terminated) (ht : t.phase = .terminated) :
    i = .stop ∨ ∃ code, i = .bind (.failure code) := by
  by_cases hstop : i = .stop
  · exact .inl hstop
  · by_cases hbind : s.phase = .boot ∧ ∃ answer, i = .bind answer
    · obtain ⟨-, answer, rfl⟩ := hbind
      cases h with
      | bindSuccess => cases ht
      | bindFailure code => exact .inr ⟨code, rfl⟩
      | command _ hcodec => cases hcodec
    · exact absurd (h.phase_eq hstop hbind ▸ ht) hs

theorem exec_eq_stop_or_bindFailure (h : exec i s = .next t) (hs : s.phase ≠ .terminated)
    (ht : t.phase = .terminated) : i = .stop ∨ ∃ code, i = .bind (.failure code) := by
  obtain ⟨-, rfl | ⟨u, he, rfl⟩⟩ := exec_eq_next h
  · exact absurd ht hs
  · exact he.eq_stop_or_bindFailure hs ht

end

/-- Settles O47: a wait keeps the phase, and any other step runs the operation fetched, from the phase it found. -/
theorem onlyStopAndFailedBindTerminate : Obligations.OnlyStopAndFailedBindTerminate := by
  unfold Obligations.OnlyStopAndFailedBindTerminate
  intro s t hstep hs ht
  obtain ⟨-, ⟨-, rfl⟩ | ⟨i, u, hf, hexec⟩⟩ := step_eq_next hstep
  · exact absurd ht hs
  · rw [← fetch_keeps_phase hf] at hs
    exact ⟨i, u, hf, exec_eq_stop_or_bindFailure hexec hs ht⟩

end Sys2Proof.Machine
end

