-- ==== Sys2Proof/Proofs/Record.lean ====
section
/-! The records of the operations (R83–R87): a well-formed operation's record reads back, whatever is read was such a
record, and what R87 lists is refused. The readers of Laws/Record are put together here by operation code. -/

namespace Sys2Proof

open Result

@[simp] theorem count16_toNat (v : U16) : count16 v.toNat = bytes16 v := bytes16_count_of_toNat rfl

/-! ## Reading a record -/

/-- The operands of a well-formed operation read back under its operation code. -/
theorem takeOperands_operands {i : Instr} (hi : i.wf = true) (s : Bytes) :
    takeOperands i.code (i.operands ++ s) = .ok (i, s) := by
  cases i with
  | decode input =>
    have hread := takeBytes_bytesRecord (of_decide_eq_true hi) s
    simp [takeOperands, Instr.code, Instr.operands, hread]
  | encode m =>
    have hread := takeMessage_messageRecord hi s
    simp [takeOperands, Instr.code, Instr.operands, hread]
  | buildReply q =>
    have hread := takeMessage_messageRecord hi s
    simp [takeOperands, Instr.code, Instr.operands, hread]
  | bind answer =>
    have hread := takeBindAnswer_bindRecord hi s
    simp [takeOperands, Instr.code, Instr.operands, hread]
  | recv peer payload =>
    obtain ⟨hpeer, hpayload⟩ := of_decide_eq_true hi
    have hread := takeBytes_bytesRecord hpayload s
    have hn : (BitVec.ofNat 8 peer).toNat = peer := ofNat8_toNat (Nat.le_of_lt_succ hpeer)
    simp [takeOperands, Instr.code, Instr.operands, hread, hn, -BitVec.toNat_ofNat]
  | recvFail => rfl
  | handle h =>
    obtain ⟨v, hread, hn⟩ := takeU16_count16 (of_decide_eq_true hi) s
    simp [takeOperands, Instr.code, Instr.operands, hread, hn]
  | send h o =>
    obtain ⟨hh, ho⟩ := (Bool.and_eq_true _ _).mp hi
    obtain ⟨v, hread, hn⟩ := takeU16_count16 (of_decide_eq_true hh) (outcomeRecord o ++ s)
    have hread' := takeOutcome_outcomeRecord ho s
    simp [takeOperands, Instr.code, Instr.operands, hread, hread', hn]
  | stop => rfl

/-- Settles O1: the operation byte selects the reader of the operation's own operands. -/
theorem recordReadsBack : Obligations.RecordReadsBack := by
  unfold Obligations.RecordReadsBack
  intro i rest hi
  rw [encodeRecord, List.cons_append, decodeRecord, takeU8_cons, bind_ok]
  exact takeOperands_operands hi rest

/-- What is read under an operation code is a well-formed operation of that code, and its operands were there. -/
theorem takeOperands_eq_ok {code : Byte} {s rest : Bytes} {i : Instr} (h : takeOperands code s = .ok (i, rest)) :
    i.wf = true ∧ i.code = code ∧ s = i.operands ++ rest := by
  unfold takeOperands at h
  split_ifs at h with hc hc hc hc hc hc hc hc hc <;>
    simp only [bind_eq_ok_iff, map_eq_ok_iff, Prod.exists, Prod.mk.injEq, Result.ok.injEq] at h <;>
    subst hc
  · obtain ⟨b, r, hb, rfl, rfl⟩ := h
    obtain ⟨hlen, rfl⟩ := takeBytes_eq_ok hb
    exact ⟨decide_eq_true hlen, rfl, rfl⟩
  · obtain ⟨m, r, hm, rfl, rfl⟩ := h
    obtain ⟨hwf, rfl⟩ := takeMessage_eq_ok hm
    exact ⟨hwf, rfl, rfl⟩
  · obtain ⟨m, r, hm, rfl, rfl⟩ := h
    obtain ⟨hwf, rfl⟩ := takeMessage_eq_ok hm
    exact ⟨hwf, rfl, rfl⟩
  · obtain ⟨a, r, ha, rfl, rfl⟩ := h
    obtain ⟨hwf, rfl⟩ := takeBindAnswer_eq_ok ha
    exact ⟨hwf, rfl, rfl⟩
  · obtain ⟨peer, r, hp, b, r', hb, rfl, rfl⟩ := h
    obtain rfl := takeU8_eq_ok hp
    obtain ⟨hlen, rfl⟩ := takeBytes_eq_ok hb
    exact ⟨decide_eq_true ⟨peer.isLt, hlen⟩, rfl, by simp [Instr.operands]⟩
  · obtain ⟨rfl, rfl⟩ := h
    exact ⟨rfl, rfl, rfl⟩
  · obtain ⟨v, r, hv, rfl, rfl⟩ := h
    obtain rfl := takeU16_eq_ok hv
    exact ⟨decide_eq_true v.isLt, rfl, by simp [Instr.operands, count16_toNat]⟩
  · obtain ⟨v, r, hv, o, r', ho, rfl, rfl⟩ := h
    obtain rfl := takeU16_eq_ok hv
    obtain ⟨hwf, rfl⟩ := takeOutcome_eq_ok ho
    refine ⟨?_, rfl, by simp [Instr.operands, count16_toNat]⟩
    simp only [Instr.wf, hwf, Bool.and_true, decide_eq_true_eq]
    exact v.isLt
  · obtain ⟨rfl, rfl⟩ := h
    exact ⟨rfl, rfl, rfl⟩

/-- Settles O2: the byte before the operands is the code of the operation read. -/
theorem recordReadWasWritten : Obligations.RecordReadWasWritten := by
  unfold Obligations.RecordReadWasWritten
  intro bytes rest i h
  simp only [decodeRecord, bind_eq_ok_iff, Prod.exists] at h
  obtain ⟨code, s, hcode, hoperands⟩ := h
  obtain rfl := takeU8_eq_ok hcode
  obtain ⟨hwf, rfl, rfl⟩ := takeOperands_eq_ok hoperands
  exact ⟨hwf, rfl⟩

theorem decodeRecord_of_eq {bytes rest : Bytes} {i : Instr} (hi : i.wf = true) (h : bytes = encodeRecord i ++ rest) :
    decodeRecord bytes = .ok (i, rest) := by
  rw [h]
  exact recordReadsBack i rest hi

/-- Settles O3: each byte string is the record of its operation, with `rest` after it, so it reads back. -/
theorem programRecordsDecode : Obligations.ProgramRecordsDecode := by
  unfold Obligations.ProgramRecordsDecode
  and_intros <;> exact decodeRecord_of_eq (by decide) (by decide)

end Sys2Proof
end

