-- ==== Sys2Proof/Proofs/Refused.lean ====
section
/-! What a step refuses and what it runs (R33, R84, R87, R164): the streams that spell no operation, the illegal
configurations, the wait, and the operation that comes next. -/

namespace Sys2Proof

open Result

/-! ## Readers whose one error is the end of the stream -/

/-- A read fails only where its bytes run past the end of the stream. -/
def ErrsTruncated {α : Type} (r : Taken α) : Prop :=
  ∀ e, r = .err e → e = .truncated

namespace ErrsTruncated

variable {α β : Type}

theorem of_ok (x : α × Bytes) : ErrsTruncated (.ok x) := nofun

theorem of_truncated : ErrsTruncated (.err .truncated : Taken α) := by
  rintro e ⟨⟩
  rfl

theorem map {r : Taken α} (hr : ErrsTruncated r) (f : α × Bytes → β × Bytes) : ErrsTruncated (r.map f) :=
  fun e h => hr e (map_eq_err_iff.1 h)

theorem bind {r : Taken α} (hr : ErrsTruncated r) {f : α × Bytes → Taken β} (hf : ∀ x, ErrsTruncated (f x)) :
    ErrsTruncated (r.bind f) := by
  intro e h
  obtain h | ⟨x, -, h⟩ := bind_eq_err_iff.1 h
  · exact hr e h
  · exact hf x e h

theorem takeU8 (s : Bytes) : ErrsTruncated (takeU8 s) := by
  cases s
  · exact of_truncated
  · exact of_ok _

theorem takeU16 (s : Bytes) : ErrsTruncated (takeU16 s) := by
  match s with
  | [] | [_] => exact of_truncated
  | _ :: _ :: _ => exact of_ok _

theorem takeN (n : Nat) (s : Bytes) : ErrsTruncated (takeN n s) := by
  induction n generalizing s with
  | zero => exact of_ok _
  | succ n ih =>
    cases s with
    | nil => exact of_truncated
    | cons b s => exact (ih s).map _

theorem takeMany {item : Bytes → Taken α} (hitem : ∀ s, ErrsTruncated (item s)) (n : Nat) (s : Bytes) :
    ErrsTruncated (takeMany item n s) := by
  induction n generalizing s with
  | zero => exact of_ok _
  | succ n ih => exact (hitem s).bind fun _ => (ih _).map _

theorem takeLabel (s : Bytes) : ErrsTruncated (takeLabel s) :=
  (takeU8 s).bind fun _ => (takeN _ _).map _

theorem takeQuestion (s : Bytes) : ErrsTruncated (takeQuestion s) :=
  (takeU16 s).bind fun _ => (takeMany takeLabel _ _).bind fun _ => (takeU16 _).bind fun _ => (takeU16 _).map _

theorem takeHeader (s : Bytes) : ErrsTruncated (takeHeader s) :=
  (takeU16 s).bind fun _ => (takeU16 _).bind fun _ => (takeU16 _).bind fun _ => (takeU16 _).bind fun _ =>
    (takeU16 _).bind fun _ => (takeU16 _).map _

theorem takeMessage (s : Bytes) : ErrsTruncated (takeMessage s) :=
  (takeHeader s).bind fun _ => (takeU16 _).bind fun _ => (takeMany takeQuestion _ _).map _

theorem takeBytes (s : Bytes) : ErrsTruncated (takeBytes s) :=
  (takeU16 s).bind fun _ => takeN _ _

/-- A result byte is the first byte of the operand, and a failure's code is the last. -/
theorem takeBindAnswer {s more : Bytes} {a : BindAnswer} (h : s ++ more = bindRecord a) (hmore : more ≠ []) :
    ErrsTruncated (takeBindAnswer s) := by
  match s, a with
  | [], _ => exact of_truncated
  | r :: s, .success =>
    obtain ⟨rfl, -⟩ := List.cons.inj h
    exact of_ok _
  | [r], .failure code =>
    obtain ⟨rfl, -⟩ := List.cons.inj h
    exact of_truncated
  | r :: c :: s, .failure code =>
    exact absurd (List.append_eq_nil_iff.1 (List.cons.inj (List.cons.inj h).2).2).2 hmore

theorem takeOutcome {s more : Bytes} {o : WriteOutcome} (h : s ++ more = outcomeRecord o) :
    ErrsTruncated (takeOutcome s) := by
  match s, o with
  | [], _ => exact of_truncated
  | b :: s, .ok =>
    obtain ⟨rfl, -⟩ := List.cons.inj h
    exact of_ok _
  | b :: s, .short n =>
    obtain ⟨rfl, -⟩ := List.cons.inj h
    exact (takeU16 s).map _
  | b :: s, .error =>
    obtain ⟨rfl, -⟩ := List.cons.inj h
    exact of_ok _

/-- The operands of a record cut short lack bytes, and nothing else is wrong with them. -/
theorem takeOperands {i : Instr} {s more : Bytes} (h : s ++ more = i.operands) (hmore : more ≠ []) :
    ErrsTruncated (takeOperands i.code s) := by
  cases i with
  | decode input => exact (takeBytes s).map _
  | encode m => exact (takeMessage s).map _
  | buildReply q => exact (takeMessage s).map _
  | bind answer => exact (takeBindAnswer h hmore).map _
  | recv peer payload => exact (takeU8 s).bind fun _ => (takeBytes _).map _
  | recvFail => exact of_ok _
  | handle k => exact (takeU16 s).map _
  | send k o =>
    match s with
    | [] | [_] => exact of_truncated
    | hi :: lo :: s =>
      have ho : s ++ more = outcomeRecord o := (List.cons.inj (List.cons.inj h).2).2
      exact (takeOutcome ho).map _
  | stop => exact of_ok _

end ErrsTruncated

/-! ## The streams of R87 -/

theorem decodeRecord_cons (code : Byte) (s : Bytes) : decodeRecord (code :: s) = takeOperands code s := rfl

/-- Records are self-delimiting: no proper part from the front of a record reads as an operation. -/
theorem decodeRecord_proper_prefix_ne_ok {i j : Instr} {s more rest : Bytes} (hi : i.wf = true) (hmore : more ≠ [])
    (h : s ++ more = encodeRecord i) : decodeRecord s ≠ .ok (j, rest) := by
  intro hs
  obtain ⟨hj, rfl⟩ := recordReadWasWritten _ _ _ hs
  have hread := recordReadsBack i [] hi
  rw [List.append_nil, ← h, List.append_assoc, recordReadsBack j _ hj] at hread
  simp only [Result.ok.injEq, Prod.mk.injEq, List.append_eq_nil_iff] at hread
  exact hmore hread.2.2

theorem decodeRecord_of_proper_prefix {i : Instr} {s more : Bytes} (hi : i.wf = true) (hs : s ≠ []) (hmore : more ≠ [])
    (h : s ++ more = encodeRecord i) : decodeRecord s = .err .truncated := by
  cases hd : decodeRecord s with
  | ok x => exact absurd hd (decodeRecord_proper_prefix_ne_ok hi hmore h)
  | err e =>
    obtain ⟨code, s, rfl⟩ := List.exists_cons_of_ne_nil hs
    obtain ⟨rfl, hoperands⟩ := List.cons.inj h
    rw [ErrsTruncated.takeOperands hoperands hmore e hd]

theorem decodeRecord_of_unassigned {code : Byte} {s : Bytes}
    (h : code ∉ [0x01#8, 0x02#8, 0x03#8, 0x10#8, 0x11#8, 0x12#8, 0x20#8, 0x21#8, 0x30#8]) :
    decodeRecord (code :: s) = .err (.unassignedCode code) := by
  simp only [List.mem_cons, List.not_mem_nil, or_false, not_or] at h
  obtain ⟨h1, h2, h3, h4, h5, h6, h7, h8, h9⟩ := h
  rw [decodeRecord_cons, takeOperands, if_neg h1, if_neg h2, if_neg h3, if_neg h4, if_neg h5, if_neg h6, if_neg h7,
    if_neg h8, if_neg h9]

theorem takeOutcome_of_bad {o : Byte} (h : 0x02#8 < o) (s : Bytes) : takeOutcome (o :: s) = .err (.badOutcome o) := by
  have h0 : o ≠ 0x00#8 := by rintro rfl; exact absurd h (by decide)
  have h1 : o ≠ 0x01#8 := by rintro rfl; exact absurd h (by decide)
  have h2 : o ≠ 0x02#8 := by rintro rfl; exact absurd h (by decide)
  simp only [takeOutcome, takeU8_cons, bind_ok, if_neg h0, if_neg h1, if_neg h2]

theorem decodeRecord_of_bad_outcome (hi lo : Byte) {o : Byte} (h : 0x02#8 < o) (s : Bytes) :
    decodeRecord (0x21#8 :: hi :: lo :: o :: s) = .err (.badOutcome o) := by
  change (takeOutcome (o :: s)).map _ = _
  rw [takeOutcome_of_bad h, map_err]

end Sys2Proof

namespace Sys2Proof.Machine

/-! ## Refused steps -/

section
variable {s : State}

/-- With an empty agenda the step looks at the stream (assumption 5). -/
theorem step_of_decodeRecord_err {e : RecordError} (hl : s.cfg.legal = true) (ha : s.agenda = []) (hs : s.stream ≠ [])
    (h : decodeRecord s.stream = .err e) : step s = .refused (.badRecord e) := by
  have hfetch : s.fetch = .err e := by
    simp [State.fetch, ha, hs, h]
  rw [step, ifLegal_of_legal hl, hfetch]

theorem step_of_decodeRecord_ok {i : Instr} {rest : Bytes} (hl : s.cfg.legal = true) (ha : s.agenda = [])
    (h : decodeRecord s.stream = .ok (i, rest)) : step s = exec i { s with stream := rest } :=
  step_of_fetch hl (fetch_eq_some_iff.2 (.inr ⟨ha, rest, h, rfl⟩))

theorem exec_recv_outside_peers {peer : Nat} {payload : Bytes} (hl : s.cfg.legal = true) (h : s.peers.length ≤ peer) :
    exec (.recv peer payload) s = .refused (.peerOutsideList peer) := by
  have hnone : s.peerAt? peer = none := List.getElem?_eq_none h
  rw [exec, execRecv, ifLegal_of_legal hl, hnone]

theorem fetch_given_singleton (i : Instr) (ha : s.agenda = []) :
    (s.given [i] [] []).fetch = .ok (some (i, s)) := by
  cases s
  subst ha
  simp [State.given, State.fetch, State.withAgenda, State.withStream, State.withPeers]

end

/-- Settles O7: each clause is what the decoder or RECV does with that input. -/
theorem unspelledRecordsAreRefused : Obligations.UnspelledRecordsAreRefused := by
  unfold Obligations.UnspelledRecordsAreRefused
  intro s hl ha
  have hrefuse {e : RecordError} (hs : s.stream ≠ []) (h : decodeRecord s.stream = .err e) :
      step s = .refused (.badRecord e) := step_of_decodeRecord_err hl ha hs h
  refine ⟨fun code rest hs hcode => hrefuse (by simp [hs]) ?_, fun i more hi hs hmore h => hrefuse hs ?_,
    fun rest hs => hrefuse (by simp [hs]) ?_, fun hi lo o rest hs ho => hrefuse (by simp [hs]) ?_,
    fun peer payload rest hs hpeer => ?_, fun peer payload => exec_recv_outside_peers hl⟩
  · rw [hs, decodeRecord_of_unassigned hcode]
  · exact decodeRecord_of_proper_prefix hi hs hmore h
  · rw [hs]
    rfl
  · rw [hs, decodeRecord_of_bad_outcome hi lo ho]
  · rw [step_of_decodeRecord_ok hl ha hs]
    exact exec_recv_outside_peers hl hpeer

/-- Settles O5: the operation fetched is the first of the agenda or of the stream; and the environment may put any
operation on an empty agenda. -/
theorem stepRunsFirstRecord : Obligations.StepRunsFirstRecord := by
  unfold Obligations.StepRunsFirstRecord
  refine fun s i hl => ⟨fun rest ha => ?_, fun rest => step_of_decodeRecord_ok hl, fun t ha htakes => ?_⟩
  · exact step_of_fetch hl (fetch_eq_some_iff.2 (.inl ⟨rest, ha, rfl⟩))
  · refine ⟨[i], [], [], ?_⟩
    rw [step_of_fetch (s := s.given [i] [] []) hl (fetch_given_singleton i ha)]
    exact htakes.1

/-- Settles O6: with agenda and stream empty there is nothing to fetch. -/
theorem emptyStreamWaits : Obligations.EmptyStreamWaits := by
  unfold Obligations.EmptyStreamWaits
  exact fun s hl ha hs => step_of_fetch_none hl (fetch_eq_none_iff.2 ⟨ha, hs⟩)

/-! ## Illegal configurations -/

theorem legal_iff {c : Config} : c.legal = true ↔ c.policy = .stubNameError ∧ c.inflightLimit ≠ some 0 := by
  simp [Config.legal]

theorem ifLegal_of_illegal {s : State} (h : s.cfg.legal = false) (x : Answer) :
    ifLegal s x = .refused .illegalConfig := by
  rw [ifLegal, h]
  rfl

theorem exec_of_illegal {s : State} (h : s.cfg.legal = false) (i : Instr) : exec i s = .refused .illegalConfig := by
  cases i <;> exact ifLegal_of_illegal h _

/-- Settles O8: step and every operation look at the configuration first. -/
theorem illegalConfigurationIsRefused : Obligations.IllegalConfigurationIsRefused := by
  unfold Obligations.IllegalConfigurationIsRefused
  refine fun s => ⟨fun h => ?_, fun hpolicy hlimit => legal_iff.2 ⟨hpolicy, hlimit⟩⟩
  have hillegal : s.cfg.legal = false := by
    rw [Bool.eq_false_iff, Ne, legal_iff]
    rintro ⟨hpolicy, hlimit⟩
    obtain hforward | hzero := h
    · simp [hforward] at hpolicy
    · exact hlimit hzero
  exact ⟨ifLegal_of_illegal hillegal _, exec_of_illegal hillegal⟩

end Sys2Proof.Machine
end

