-- ==== Sys2Proof/Proofs/Codec.lean ====
section
/-! DECODE and ENCODE (R100–R131). DECODE returns a message exactly where the input begins with the encoding of a
message the wire can carry; the laws of the codec follow from that. And every input begins some input that decodes
(R81). -/

namespace Sys2Proof.Machine

open Result

/-! ## What DECODE accepts -/

/-- DECODE reads the header, then as many questions as it counts: so the encoding of what it returns, and that is how
far the cursor comes. -/
theorem decodeAt_eq_ok_iff {b : Bytes} {m : Message} {c : Nat} :
    decodeAt b = .ok (m, c) ↔ m.OnWire ∧ c = (encodeMessage m).length ∧ encodeMessage m <+: b := by
  simp only [decodeAt, bind_eq_ok_iff, map_eq_ok_iff, Prod.exists, decodeHeader_eq_ok_iff, decodeQuestions_eq_ok_iff,
    Prod.mk.injEq, encodeMessage, append_prefix_iff, List.length_append, headerBytes_length]
  constructor
  · rintro ⟨header, _, ⟨rfl, hheader⟩, questions, _, ⟨hcount, hok, rfl, hquestions⟩, rfl, rfl⟩
    exact ⟨⟨hcount.symm, hok⟩, rfl, hheader, hquestions⟩
  · rintro ⟨⟨hcount, hok⟩, rfl, hheader, hquestions⟩
    exact ⟨m.header, 12, ⟨rfl, hheader⟩, m.questions, _, ⟨hcount.symm, hok, rfl, hquestions⟩, rfl, rfl⟩

/-- Settles O13: `decodeAt` without its cursor. -/
theorem decodeAcceptsExactlyEncodings : Obligations.DecodeAcceptsExactlyEncodings := by
  unfold Obligations.DecodeAcceptsExactlyEncodings
  intro b m
  simp only [decodeMessage_eq_ok_iff, decodeAt_eq_ok_iff, exists_and_left, exists_eq_left]

/-- The bytes DECODE consumes are the encoding of what it returns. -/
theorem encodeMessage_eq_take {b : Bytes} {m : Message} {c : Nat} (h : decodeAt b = .ok (m, c)) :
    encodeMessage m = b.take c := by
  obtain ⟨-, rfl, hpre⟩ := decodeAt_eq_ok_iff.1 h
  exact List.prefix_iff_eq_take.1 hpre

theorem consumed_le_length {b : Bytes} {m : Message} {c : Nat} (h : decodeAt b = .ok (m, c)) : c ≤ b.length := by
  obtain ⟨-, rfl, hpre⟩ := decodeAt_eq_ok_iff.1 h
  exact hpre.length_le

/-! ## The laws -/

/-- Settles O14: an encoding begins with itself. -/
theorem roundTripRestoresMessage : Obligations.RoundTripRestoresMessage := by
  unfold Obligations.RoundTripRestoresMessage
  intro m hlabels hcount
  exact (decodeAcceptsExactlyEncodings _ _).2 ⟨⟨hcount, fun q hq l hl => (hlabels q hq l hl).1⟩, List.prefix_rfl⟩

/-- Settles O15. -/
theorem encodeGivesConsumedPrefix : Obligations.EncodeGivesConsumedPrefix := by
  unfold Obligations.EncodeGivesConsumedPrefix
  intro b m h
  obtain ⟨c, hc⟩ := decodeMessage_eq_ok_iff.1 h
  exact ⟨c, hc, consumed_le_length hc, encodeMessage_eq_take hc⟩

/-- Settles O16: a decoded message is one the wire can carry, and a label's type bounds it. -/
theorem decodedMessagesAreCounted : Obligations.DecodedMessagesAreCounted := by
  unfold Obligations.DecodedMessagesAreCounted
  intro b m h
  obtain ⟨⟨hcount, hok⟩, -⟩ := decodeMessage_sound h
  exact ⟨hcount.symm, fun q hq l hl => ⟨hok q hq l hl, l.fits⟩⟩

/-- The fields of a header are the values of the twelve bytes it is written as. -/
theorem header_fields_of_headerBytes (h : Header) (rest : Bytes) :
    [h.id, h.flags, h.qdcount, h.ancount, h.nscount, h.arcount].map BitVec.toNat =
      [0, 2, 4, 6, 8, 10].map fun i =>
        ((headerBytes h ++ rest).getD i 0#8).toNat * 256 + ((headerBytes h ++ rest).getD (i + 1) 0#8).toNat := by
  have hfield (v : U16) : v.toNat = (v.extractLsb' 8 8).toNat * 256 + (v.extractLsb' 0 8).toNat := by
    rw [← be16_toNat, be16_of_bytes16]
  simp only [List.map_cons, List.map_nil, List.cons.injEq, and_true]
  exact ⟨hfield _, hfield _, hfield _, hfield _, hfield _, hfield _⟩

/-- Settles O17: the input begins with the header as it is written. -/
theorem headerFieldsAreKept : Obligations.HeaderFieldsAreKept := by
  unfold Obligations.HeaderFieldsAreKept
  intro b m h
  obtain ⟨-, hpre⟩ := decodeMessage_sound h
  obtain ⟨rest, rfl⟩ := (List.prefix_append _ _).trans hpre
  refine ⟨?_, header_fields_of_headerBytes m.header rest⟩
  rw [List.length_append, headerBytes_length]
  omega

/-- Settles O20: what was consumed is the encoding, and it begins the new input too. -/
theorem trailingBytesAreIgnored : Obligations.TrailingBytesAreIgnored := by
  unfold Obligations.TrailingBytesAreIgnored
  intro b more m c h
  rw [← encodeMessage_eq_take h]
  obtain ⟨hwire, hlen, -⟩ := decodeAt_eq_ok_iff.1 h
  exact decodeAt_eq_ok_iff.2 ⟨hwire, hlen, List.prefix_append _ _⟩

/-- Settles O21: the length of a header and of each question. -/
theorem encodedLengthIsCounted : Obligations.EncodedLengthIsCounted := by
  unfold Obligations.EncodedLengthIsCounted
  intro m
  simp only [encodeMessage, List.length_append, headerBytes_length, List.length_flatMap, encodeQuestion_length]

/-! ## Wrong counts and empty labels -/

/-- The first questions of a message are written first. -/
theorem encodeMessage_take_prefix (m : Message) (n : Nat) :
    encodeMessage { m with questions := m.questions.take n } <+: encodeMessage m := by
  refine (List.prefix_append_right_inj _).2 ?_
  conv_rhs => rw [← List.take_append_drop n m.questions, List.flatMap_append]
  exact List.prefix_append _ _

/-- After fewer questions than the header counts the input ends. -/
theorem decodeMessage_encodeMessage_of_count_lt {m : Message} (hok : ∀ q ∈ m.questions, q.OnWire)
    (hcount : m.questions.length < m.header.qdcount.toNat) :
    decodeMessage (encodeMessage m) = .err .malformedMessage := by
  have hbroken := decodeMessage_of_broken_question (labels := []) (rest := []) hok hcount nofun
    (not_encodeQuestion_prefix_of_length_lt (Nat.zero_lt_succ 4))
  simpa [encodeMessage] using hbroken

/-- Settles O22: with enough questions the encoding of the first ones begins the encoding of all. -/
theorem wrongCountsAreWrittenVerbatim : Obligations.WrongCountsAreWrittenVerbatim := by
  unfold Obligations.WrongCountsAreWrittenVerbatim
  refine fun m => ⟨rfl, fun hok => ?_⟩
  split_ifs with hcount
  · refine (decodeAcceptsExactlyEncodings _ _).2 ⟨⟨?_, ?_⟩, encodeMessage_take_prefix m _⟩
    · exact (List.length_take_of_le hcount).symm
    · exact fun q hq => hok q (List.mem_of_mem_take hq)
  · exact decodeMessage_encodeMessage_of_count_lt hok (Nat.lt_of_not_le hcount)

/-- Settles O23: a message that comes back is one the wire can carry, and it has no empty label. -/
theorem emptyLabelsDoNotComeBack : Obligations.EmptyLabelsDoNotComeBack := by
  unfold Obligations.EmptyLabelsDoNotComeBack
  rintro m ⟨q, hq, l, hl, hempty⟩
  refine ⟨fun l hl => by rw [labelRecord, hl]; rfl, fun h => ?_⟩
  obtain ⟨⟨-, hok⟩, -⟩ := decodeMessage_sound h
  have hpos := hok q hq l hl
  simp [hempty] at hpos

/-! ## Every input begins one that decodes -/

/-- Bytes can be added so that `n` bytes stand before what is left after `n`. -/
theorem exists_padding (b : Bytes) (n : Nat) :
    ∃ pad front : Bytes, front.length = n ∧ b ++ pad = front ++ b.drop n := by
  refine ⟨List.replicate (n - b.length) 0#8, b.take n ++ List.replicate (n - b.length) 0#8, ?_, ?_⟩
  · rw [List.length_append, List.length_take, List.length_replicate]
    omega
  · obtain hle | hlt := le_or_gt n b.length
    · simp [Nat.sub_eq_zero_of_le hle]
    · simp [List.take_of_length_le hlt.le, List.drop_of_length_le hlt.le]

theorem exists_eq_headerBytes {b : Bytes} (h : b.length = 12) : ∃ header, b = headerBytes header := by
  match b, h with
  | [a0, a1, b0, b1, c0, c1, d0, d1, e0, e1, f0, f1], _ =>
    exact ⟨⟨be16 a0 a1, be16 b0 b1, be16 c0 c1, be16 d0 d1, be16 e0 e1, be16 f0 f1⟩, by simp [headerBytes]⟩

theorem exists_eq_two_fields {b : Bytes} (h : b.length = 4) : ∃ v w, b = bytes16 v ++ bytes16 w := by
  match b, h with
  | [v0, v1, w0, w1], _ => exact ⟨be16 v0 v1, be16 w0 w1, by simp⟩

/-- A byte other than 0 is the length byte of a label (R76), of the next bytes where there are enough. -/
theorem exists_labelRecord_completing {n : Byte} (hn : n ≠ 0#8) (b : Bytes) :
    ∃ pad l, 1 ≤ l.bytes.length ∧ n :: b ++ pad = labelRecord l ++ b.drop n.toNat := by
  obtain ⟨pad, body, hlen, hbody⟩ := exists_padding b n.toNat
  have hpos : n.toNat ≠ 0 := (byte_toNat_eq_zero_iff n).not.2 hn
  refine ⟨pad, ⟨body, hlen ▸ Nat.le_of_lt_succ n.isLt⟩, by simp only [hlen]; omega, ?_⟩
  simp only [labelRecord, hlen, BitVec.ofNat_toNat, BitVec.setWidth_eq, List.cons_append, hbody]

/-- The labels of an input are read off its length bytes; where it ends, a terminator is added. -/
theorem exists_encodeName_completing (b : Bytes) :
    ∃ more labels, (∀ l ∈ labels, 1 ≤ l.bytes.length) ∧ encodeName labels <+: b ++ more := by
  match b with
  | [] => exact ⟨[0x00#8], [], nofun, List.prefix_rfl⟩
  | n :: b =>
    by_cases hn : n = 0#8
    · exact ⟨[], [], nofun, by simp [hn]⟩
    · obtain ⟨pad, l, hl, hpad⟩ := exists_labelRecord_completing hn b
      obtain ⟨more, labels, hok, hpre⟩ := exists_encodeName_completing (b.drop n.toNat)
      refine ⟨pad ++ more, l :: labels, List.forall_mem_cons.2 ⟨hl, hok⟩, ?_⟩
      rw [← List.append_assoc, hpad, List.append_assoc, encodeName_cons]
      exact (List.prefix_append_right_inj _).2 hpre
termination_by b.length
decreasing_by simp

theorem exists_encodeQuestion_completing (b : Bytes) :
    ∃ more, ∃ q : Question, q.OnWire ∧ encodeQuestion q <+: b ++ more := by
  obtain ⟨more, labels, hok, rest, hname⟩ := exists_encodeName_completing b
  obtain ⟨pad, tail, hlen, htail⟩ := exists_padding rest 4
  obtain ⟨qtype, qclass, rfl⟩ := exists_eq_two_fields hlen
  refine ⟨more ++ pad, ⟨labels, qtype, qclass⟩, hok, rest.drop 4, ?_⟩
  rw [← List.append_assoc, ← hname, List.append_assoc _ rest, htail]
  simp [encodeQuestion]

theorem exists_questions_completing (n : Nat) (b : Bytes) :
    ∃ more, ∃ qs : List Question, qs.length = n ∧ (∀ q ∈ qs, q.OnWire) ∧ qs.flatMap encodeQuestion <+: b ++ more := by
  induction n generalizing b with
  | zero => exact ⟨[], [], rfl, nofun, List.nil_prefix⟩
  | succ n ih =>
    obtain ⟨more, q, hq, rest, hrest⟩ := exists_encodeQuestion_completing b
    obtain ⟨more', qs, hlen, hqs, hpre⟩ := ih rest
    refine ⟨more ++ more', q :: qs, by simp [hlen], List.forall_mem_cons.2 ⟨hq, hqs⟩, ?_⟩
    rw [← List.append_assoc, ← hrest, List.append_assoc, List.flatMap_cons]
    exact (List.prefix_append_right_inj _).2 hpre

theorem exists_decodeMessage_completing (b : Bytes) : ∃ more m, decodeMessage (b ++ more) = .ok m := by
  obtain ⟨pad, front, hlen, hfront⟩ := exists_padding b 12
  obtain ⟨header, rfl⟩ := exists_eq_headerBytes hlen
  obtain ⟨more, qs, hcount, hqs, hpre⟩ := exists_questions_completing header.qdcount.toNat (b.drop 12)
  refine ⟨pad ++ more, ⟨header, qs⟩, (decodeAcceptsExactlyEncodings _ _).2 ⟨⟨hcount.symm, hqs⟩, ?_⟩⟩
  rw [← List.append_assoc, hfront, List.append_assoc]
  exact (List.prefix_append_right_inj _).2 hpre

/-- Settles O18: MalformedMessage is the one error, and bytes can always be added until the input decodes. -/
theorem decodeFailsOnlyByUnderrun : Obligations.DecodeFailsOnlyByUnderrun := by
  unfold Obligations.DecodeFailsOnlyByUnderrun
  refine fun b => ⟨?_, fun _ => exists_decodeMessage_completing b⟩
  cases h : decodeMessage b with
  | ok m => exact .inl ⟨m, rfl⟩
  | err e => exact .inr (by rw [decodeMessage_err h])

end Sys2Proof.Machine
end

