-- ==== Sys2Proof/Proofs/Reply.lean ====
section
/-! The reply as a whole (R144, R146, R152, R64): its clear flag bits, its question section with the class filter on,
and its bytes beside those of the query. -/

namespace Sys2Proof.Machine

/-! ## The flags -/

/-- Settles O25: the bits lie outside 0x8003 and are not bit 8, the one bit of the query that is kept. -/
theorem replyClearsUnnamedFlags : Obligations.ReplyClearsUnnamedFlags := by
  unfold Obligations.ReplyClearsUnnamedFlags
  intro cfg q k hk
  have hclear : ∀ k < 16, (9 ≤ k ∧ k ≤ 14) ∨ (4 ≤ k ∧ k ≤ 7) → (0x8003#16).getLsbD k = false := by decide
  have hne : ¬ 8 = k := by omega
  change (replyFlags q.header.flags).getLsbD k = false
  rw [getLsbD_replyFlags, hclear k (by omega) hk, decide_eq_false hne, Bool.false_and, Bool.or_false]

/-! ## The question section -/

theorem keptByFilter_iff {q : Question} : keptByFilter q = true ↔ q.qclass = 1#16 ∨ q.qclass = 255#16 := by
  simp [keptByFilter, classIN, classANY]

theorem replyQuestions_of_filter_on {cfg : Config} (q : Message) (h : cfg.classFilter = true) :
    replyQuestions cfg q = q.questions.filter keptByFilter := by
  simp [replyQuestions, h]

theorem replyCount_of_filter_on {cfg : Config} (q : Message) (h : cfg.classFilter = true) :
    replyCount cfg q = keptCount (q.questions.filter keptByFilter).length := by
  simp [replyCount, replyQuestions, h]

theorem keptCount_toNat {n : Nat} (h : n < 65536) : (keptCount n).toNat = n := by
  rw [keptCount, if_pos h, ofNat16_toNat h]

/-- Under either setting of the filter. -/
theorem replyQuestions_sublist (cfg : Config) (q : Message) : (replyQuestions cfg q).Sublist q.questions := by
  unfold replyQuestions
  split_ifs
  · exact List.filter_sublist
  · exact List.Sublist.refl _

theorem count_filter_keptByFilter (qs : List Question) (x : Question) :
    (qs.filter keptByFilter).count x = if x.qclass = 1#16 ∨ x.qclass = 255#16 then qs.count x else 0 := by
  split_ifs with hx
  · exact List.count_filter (keptByFilter_iff.2 hx)
  · refine List.count_eq_zero.2 fun hmem => hx ?_
    exact keptByFilter_iff.1 (List.mem_filter.1 hmem).2

/-- Settles O27: the questions are those the filter keeps, and a u16 holds their number. -/
theorem replyKeepsOnlyInAndAny : Obligations.ReplyKeepsOnlyInAndAny := by
  unfold Obligations.ReplyKeepsOnlyInAndAny
  intro cfg q hon hlen
  refine ⟨replyQuestions_sublist cfg q, fun x => ?_, ?_⟩
  · change (replyQuestions cfg q).count x = _
    rw [replyQuestions_of_filter_on q hon]
    exact count_filter_keptByFilter q.questions x
  · change (replyCount cfg q).toNat = (replyQuestions cfg q).length
    rw [replyCount_of_filter_on q hon, replyQuestions_of_filter_on q hon]
    exact keptCount_toNat (lt_of_le_of_lt (List.length_filter_le _ _) hlen)

/-! ## The bytes -/

theorem encodeMessage_drop_header (m : Message) :
    (encodeMessage m).drop 12 = m.questions.flatMap encodeQuestion :=
  List.drop_left' (headerBytes_length m.header)

theorem encodeMessage_buildReply (cfg : Config) (q : Message) :
    encodeMessage (buildReply cfg q) =
      bytes16 q.header.id ++ bytes16 (replyFlags q.header.flags) ++ bytes16 (replyCount cfg q) ++
        [0#8, 0#8, 0#8, 0#8, 0#8, 0#8] ++ (replyQuestions cfg q).flatMap encodeQuestion := by
  have hzero : bytes16 0#16 = [0#8, 0#8] := rfl
  simp [encodeMessage, headerBytes, buildReply, hzero]

/-- Settles O28: bytes 12 on of what was consumed are the questions, which the reply repeats. -/
theorem replyPatchesQueryBytes : Obligations.ReplyPatchesQueryBytes := by
  unfold Obligations.ReplyPatchesQueryBytes
  intro cfg b q consumed hoff h
  rw [← encodeMessage_eq_take h, encodeMessage_drop_header, encodeMessage_buildReply,
    replyCount_of_filter_off q hoff, replyQuestions_of_filter_off q hoff]
  rfl

theorem encodeMessage_length (m : Message) :
    (encodeMessage m).length = 12 + (m.questions.flatMap encodeQuestion).length := by
  rw [encodeMessage, List.length_append, headerBytes_length]

/-- The reply's questions are some of the query's. -/
theorem encodeMessage_buildReply_length_le (cfg : Config) (q : Message) :
    (encodeMessage (buildReply cfg q)).length ≤ (encodeMessage q).length := by
  rw [encodeMessage_length, encodeMessage_length]
  exact Nat.add_le_add_left ((replyQuestions_sublist cfg q).flatMap _).length_le 12

theorem encodeMessage_buildReply_length_of_filter_off {cfg : Config} (q : Message) (hoff : cfg.classFilter = false) :
    (encodeMessage (buildReply cfg q)).length = (encodeMessage q).length := by
  rw [encodeMessage_length, encodeMessage_length, ← replyQuestions_of_filter_off q hoff]
  rfl

/-- What DECODE consumed is as long as the encoding of the query. -/
theorem length_encodeMessage_of_decodeAt {b : Bytes} {q : Message} {consumed : Nat}
    (h : decodeAt b = .ok (q, consumed)) : (encodeMessage q).length = consumed :=
  (decodeAt_eq_ok_iff.1 h).2.1.symm

/-- Settles O29: the reply is no longer than the encoding of the query, which is what was consumed. -/
theorem replyIsNoLongerThanQuery : Obligations.ReplyIsNoLongerThanQuery := by
  unfold Obligations.ReplyIsNoLongerThanQuery
  intro cfg b q consumed h
  have hprocess : process cfg b = .ok (encodeMessage (buildReply cfg q)) :=
    process_eq_ok_iff.2 ⟨q, decodeMessage_eq_ok_iff.2 ⟨consumed, h⟩, rfl⟩
  refine ⟨_, hprocess, ?_, consumed_le_length h, fun hoff => ?_⟩
  · exact (encodeMessage_buildReply_length_le cfg q).trans_eq (length_encodeMessage_of_decodeAt h)
  · rw [encodeMessage_buildReply_length_of_filter_off q hoff, length_encodeMessage_of_decodeAt h]

/-- A reply is no longer than the payload it answers (R64). -/
theorem process_length_le {cfg : Config} {payload reply : Bytes} (h : process cfg payload = .ok reply) :
    reply.length ≤ payload.length := by
  obtain ⟨q, hq, rfl⟩ := process_eq_ok_iff.1 h
  obtain ⟨-, hpre⟩ := decodeMessage_sound hq
  exact (encodeMessage_buildReply_length_le cfg q).trans hpre.length_le

end Sys2Proof.Machine
end

