-- ==== Sys2Proof/Proofs/Command.lean ====
section
/-! The codec commands (R31, R84): where they run they write the port and change nothing else, and the pseudo-operations
(R89) are runs of them. -/

namespace Sys2Proof.Machine

section
variable {s : State}

/-! ## One command -/

theorem command_of_legal {cmd : Byte} {inp : PortValue} {r : Result BlockError PortValue} (hl : s.cfg.legal = true)
    (hp : s.phase ≠ .terminated) :
    command cmd inp r s = .next ((s.withPort (CodecPort.done cmd inp r)).mark .moved) := by
  rw [command, ifLegal_of_legal hl, if_neg hp, moved]

theorem exec_decode_of_legal (input : Bytes) (hl : s.cfg.legal = true) (hp : s.phase ≠ .terminated) :
    exec (.decode input) s =
      .next ((s.withPort (CodecPort.done 0x01#8 (.bytes input) ((decodeMessage input).map .message))).mark .moved) :=
  command_of_legal hl hp

theorem exec_encode_of_legal (m : Message) (hl : s.cfg.legal = true) (hp : s.phase ≠ .terminated) :
    exec (.encode m) s =
      .next ((s.withPort (CodecPort.done 0x02#8 (.message m) (.ok (.bytes (encodeMessage m))))).mark .moved) :=
  command_of_legal hl hp

theorem exec_buildReply_of_legal (q : Message) (hl : s.cfg.legal = true) (hp : s.phase ≠ .terminated) :
    exec (.buildReply q) s =
      .next ((s.withPort (CodecPort.done 0x03#8 (.message q) (.ok (.message (buildReply s.cfg q))))).mark .moved) :=
  command_of_legal hl hp

/-- A codec command runs, and what the next one looks at stays. -/
theorem exists_exec_codecOp {i : Instr} (hi : CodecOp i) (hl : s.cfg.legal = true) (hp : s.phase ≠ .terminated) :
    ∃ t, exec i s = .next t ∧ t.cfg = s.cfg ∧ t.phase = s.phase := by
  cases hi <;> exact ⟨_, command_of_legal hl hp, rfl, rfl⟩

/-- A codec command has no step in Terminated (R162). -/
theorem codecOp_hasNoStep {i : Instr} (hi : CodecOp i) (hl : s.cfg.legal = true) (hp : s.phase = .terminated) :
    HasNoStep i s := by
  have hno (cmd : Byte) (inp : PortValue) (r : Result BlockError PortValue) : command cmd inp r s = noStep s := by
    rw [command, ifLegal_of_legal hl, if_pos hp]
  cases hi <;> exact hno ..

end

/-- Settles O9: the port by the result of DECODE. -/
theorem decodeCommandGivesResult : Obligations.DecodeCommandGivesResult := by
  unfold Obligations.DecodeCommandGivesResult
  intro s input hl hp
  rw [exec_decode_of_legal input hl hp]
  cases decodeMessage input <;> rfl

/-- Settles O10: the bytes spelled out are ENCODE's by definition. -/
theorem encodeCommandGivesBytes : Obligations.EncodeCommandGivesBytes := by
  unfold Obligations.EncodeCommandGivesBytes
  intro s m hl hp
  rw [exec_encode_of_legal m hl hp]
  rfl

theorem keptByFilter_eq_decide : keptByFilter = fun x => decide (x.qclass = 1#16 ∨ x.qclass = 255#16) := by
  funext x
  rw [Bool.eq_iff_iff, keptByFilter_iff, decide_eq_true_iff]

/-- Settles O11: the count kept is `keptCount`, the number of kept questions where a u16 is that number. -/
theorem buildReplyCommandGivesReply : Obligations.BuildReplyCommandGivesReply := by
  unfold Obligations.BuildReplyCommandGivesReply
  intro s q hl hp
  rw [exec_buildReply_of_legal q hl hp, ← keptByFilter_eq_decide]
  refine ⟨keptCount (q.questions.filter keptByFilter).length, keptCount_toNat, ?_⟩
  cases hf : s.cfg.classFilter with
  | true =>
    rw [buildReply, replyCount_of_filter_on q hf, replyQuestions_of_filter_on q hf]
    rfl
  | false =>
    rw [buildReply, replyCount_of_filter_off q hf, replyQuestions_of_filter_off q hf]
    rfl

/-! ## Pseudo-operations -/

theorem execAll_cons_of_next {i : Instr} {is : List Instr} {s t : State} (h : exec i s = .next t) :
    execAll (i :: is) s = execAll is t := by
  rw [execAll, h]

/-- The three commands of PROCESS, or the one that fails. -/
theorem execAll_expandProcess {s : State} (hl : s.cfg.legal = true) (hp : s.phase ≠ .terminated) (payload : Bytes) :
    ∃ t, execAll (expandProcess s.cfg payload) s = .next t ∧
      t.port.out = match process s.cfg payload with
        | .ok reply => some (.bytes reply)
        | .err _ => none := by
  unfold expandProcess process
  have hdecode := exec_decode_of_legal payload hl hp
  cases hd : decodeMessage payload with
  | err e =>
    refine ⟨_, execAll_cons_of_next hdecode, ?_⟩
    rw [hd]
    rfl
  | ok q =>
    obtain ⟨t, ht, hcfg, hphase⟩ := exists_exec_codecOp (.decode payload) hl hp
    rw [← hcfg] at hl
    rw [← hphase] at hp
    obtain ⟨u, hu, hcfg', hphase'⟩ := exists_exec_codecOp (.buildReply q) hl hp
    rw [← hcfg'] at hl
    rw [← hphase'] at hp
    have hencode := exec_encode_of_legal (buildReply s.cfg q) hl hp
    exact ⟨_, (execAll_cons_of_next ht).trans ((execAll_cons_of_next hu).trans (execAll_cons_of_next hencode)), rfl⟩

theorem execAll_expandRoundTrip {s : State} (hl : s.cfg.legal = true) (hp : s.phase ≠ .terminated) (m : Message) :
    ∃ t, execAll (expandRoundTrip m) s = .next t ∧
      t.port.out = match decodeMessage (encodeMessage m) with
        | .ok m' => some (.message m')
        | .err _ => none := by
  refine ⟨_, (execAll_cons_of_next (exec_encode_of_legal m hl hp)).trans
    (execAll_cons_of_next (exec_decode_of_legal (encodeMessage m) hl hp)), ?_⟩
  cases decodeMessage (encodeMessage m) <;> rfl

/-- Settles O30: each command leaves configuration and phase as they were, so the next one runs too. -/
theorem pseudoOperationsExpandToCommands : Obligations.PseudoOperationsExpandToCommands := by
  unfold Obligations.PseudoOperationsExpandToCommands
  intro s hl hp
  exact ⟨execAll_expandProcess hl hp, execAll_expandRoundTrip hl hp⟩

end Sys2Proof.Machine
end

