-- ==== Sys2Proof/Proofs/Dispatcher.lean ====
section
/-! The dispatcher steps (R160–R182): for each operation its next state where its precondition holds, and that it has no
step where the precondition fails. -/

namespace Sys2Proof.Machine

section
variable {s : State}

/-! ## BIND -/

theorem exec_bind_success (hl : s.cfg.legal = true) (hp : s.phase = .boot) (hk : s.sock = .unbound) :
    exec (.bind .success) s =
      moved (((s.withSock (.bound s.cfg.bindHost s.cfg.port)).withPhase .running).emit .bound) :=
  (ifLegal_of_legal hl).trans (if_pos ⟨hp, hk, rfl⟩)

theorem exec_bind_failure {code : Nat} (hl : s.cfg.legal = true) (hp : s.phase = .boot) (hk : s.sock = .unbound)
    (hc : code ≠ 0) : exec (.bind (.failure code)) s = moved (s.takeError (.ioBind code)) :=
  (ifLegal_of_legal hl).trans (if_pos ⟨hp, hk, bne_iff_ne.2 hc⟩)

theorem bind_hasNoStep {answer : BindAnswer} (hl : s.cfg.legal = true)
    (h : s.phase ≠ .boot ∨ answerFits answer = false) : HasNoStep (.bind answer) s := by
  have hneg : ¬ (s.phase = .boot ∧ s.sock = .unbound ∧ answerFits answer = true) := by
    rintro ⟨hp, -, hfits⟩
    obtain h | h := h
    · exact h hp
    · rw [h] at hfits
      cases hfits
  exact (ifLegal_of_legal hl).trans (if_neg hneg)

/-! ## RECV and RECV_FAIL -/

section
variable {peer : Nat} {a : Addr} {d : Bytes}

theorem exec_recv_spawn (hl : s.cfg.legal = true) (hp : s.phase = .running) (ha : s.peers[peer]? = some a)
    (hd : d.length ≤ s.cfg.rxMax) (hlim : s.limitReached = false) :
    exec (.recv peer d) s = moved (((s.withStaging d).spawn a).logMaybe .rxDump) := by
  have hpeer : s.peerAt? peer = some a := ha
  rw [exec, execRecv, ifLegal_of_legal hl, hpeer]
  simp only [hp, canDeliver_iff.2 hd, hlim, and_self, if_true, Bool.false_eq_true, if_false]

theorem exec_recv_reject (hl : s.cfg.legal = true) (hp : s.phase = .running) (ha : s.peers[peer]? = some a)
    (hd : d.length ≤ s.cfg.rxMax) (hlim : s.limitReached = true) :
    exec (.recv peer d) s = moved (((s.withStaging d).emit (.reject a d)).logMaybe .rxDump) := by
  have hpeer : s.peerAt? peer = some a := ha
  rw [exec, execRecv, ifLegal_of_legal hl, hpeer]
  simp only [hp, canDeliver_iff.2 hd, hlim, and_self, if_true]

theorem recv_hasNoStep (hl : s.cfg.legal = true) (hpeer : peer < s.peers.length)
    (h : s.phase ≠ .running ∨ s.cfg.rxMax < d.length) : HasNoStep (.recv peer d) s := by
  obtain ⟨a, ha⟩ := (peerAt?_isSome_iff s peer).2 hpeer
  have hneg : ¬ (s.phase = .running ∧ s.canDeliver d = true) := by
    rintro ⟨hp, hd⟩
    obtain h | h := h
    · exact h hp
    · exact absurd (canDeliver_iff.1 hd) (Nat.not_le.2 h)
  rw [HasNoStep, exec, execRecv, ifLegal_of_legal hl, ha]
  exact if_neg hneg

end

theorem exec_recvFail_of_running (hl : s.cfg.legal = true) (hp : s.phase = .running) :
    exec .recvFail s = moved (s.takeError .ioReceive) := by
  rw [exec, execRecvFail, ifLegal_of_legal hl, if_pos hp]

theorem recvFail_hasNoStep (hl : s.cfg.legal = true) (hp : s.phase ≠ .running) : HasNoStep .recvFail s := by
  rw [HasNoStep, exec, execRecvFail, ifLegal_of_legal hl, if_neg hp]
  rfl

/-! ## HANDLE and SEND -/

section
variable {h : Nat} {r : Handler}

theorem exec_handle_reply {b : Bytes} (hl : s.cfg.legal = true) (hp : s.phase = .running)
    (hg : s.handlers.get? h = some r) (hst : r.stage = .ready) (hb : process s.cfg r.payload = .ok b) :
    exec (.handle h) s =
      moved ((s.withHandlers (s.handlers.put h { r with stage := .pending b })).logMaybe .parsed) := by
  rw [exec, execHandle, ifLegal_of_legal hl, readyHandler?_eq_some_iff.2 ⟨hp, hg, hst⟩]
  simp only [hb]

theorem exec_handle_drop {e : BlockError} (hl : s.cfg.legal = true) (hp : s.phase = .running)
    (hg : s.handlers.get? h = some r) (hst : r.stage = .ready) (he : process s.cfg r.payload = .err e) :
    exec (.handle h) s = moved (s.takeError (.malformedMessage h)) := by
  rw [exec, execHandle, ifLegal_of_legal hl, readyHandler?_eq_some_iff.2 ⟨hp, hg, hst⟩]
  simp only [he]

theorem handle_hasNoStep (hl : s.cfg.legal = true)
    (hno : ∀ r, s.handlers.get? h = some r → s.phase = .running → r.stage ≠ .ready) : HasNoStep (.handle h) s := by
  have hnone : s.readyHandler? h = none := by
    refine Option.eq_none_iff_forall_ne_some.2 fun r hr => ?_
    obtain ⟨hp, hg, hst⟩ := readyHandler?_eq_some_iff.1 hr
    exact hno r hg hp hst
  rw [HasNoStep, exec, execHandle, ifLegal_of_legal hl, hnone]
  rfl

theorem exec_send_write {bytes : Bytes} {o : WriteOutcome} (hl : s.cfg.legal = true) (hp : s.phase = .running)
    (hg : s.handlers.get? h = some r) (hst : r.stage = .pending bytes) (ho : outcomeFits o bytes = true) :
    exec (.send h o) s = moved (s.write h r.peer bytes o) := by
  have hpending : s.pendingReply? h = some (r.peer, bytes) :=
    pendingReply?_eq_some_iff.2 ⟨hp, r.payload, by rw [hg, ← hst]⟩
  rw [exec, execSend, ifLegal_of_legal hl, hpending]
  exact if_pos ho

theorem send_hasNoStep {o : WriteOutcome} (hl : s.cfg.legal = true)
    (hno : ∀ r, s.handlers.get? h = some r → s.phase = .running → ∀ bytes, r.stage = .pending bytes →
      outcomeFits o bytes = false) : HasNoStep (.send h o) s := by
  rw [HasNoStep, exec, execSend, ifLegal_of_legal hl]
  cases hpending : s.pendingReply? h with
  | none => rfl
  | some ab =>
    obtain ⟨hp, d, hg⟩ := pendingReply?_eq_some_iff.1 hpending
    have hfits := hno _ hg hp _ rfl
    simp only [hfits, Bool.false_eq_true, if_false]
    rfl

theorem handlerOp_hasNoStep_of_absent {i : Instr} (hi : HandlerOp h i) (hl : s.cfg.legal = true)
    (hg : s.handlers.get? h = none) : HasNoStep i s := by
  cases hi with
  | handle => exact handle_hasNoStep hl (by simp [hg])
  | send o => exact send_hasNoStep hl (by simp [hg])

theorem handlerOp_hasNoStep_of_not_running {i : Instr} (hi : HandlerOp h i) (hl : s.cfg.legal = true)
    (hp : s.phase ≠ .running) : HasNoStep i s := by
  cases hi with
  | handle => exact handle_hasNoStep hl (by simp [hp])
  | send o => exact send_hasNoStep hl (by simp [hp])

end

/-! ## STOP -/

theorem exec_stop_of_not_terminated (hl : s.cfg.legal = true) (hp : s.phase ≠ .terminated) :
    exec .stop s = moved ((s.withPhase .terminated).emit .stopped) := by
  rw [exec, execStop, ifLegal_of_legal hl, if_neg hp]

theorem stop_hasNoStep (hl : s.cfg.legal = true) (hp : s.phase = .terminated) : HasNoStep .stop s := by
  rw [HasNoStep, exec, execStop, ifLegal_of_legal hl, if_pos hp]
  rfl

end

/-! ## The statements -/

/-- Settles O31. -/
theorem bindSuccessStartsLoop : Obligations.BindSuccessStartsLoop := by
  unfold Obligations.BindSuccessStartsLoop
  exact fun s hl hp hk => exec_bind_success hl hp hk

/-- Settles O32: the error branch of a failed BIND logs, which `quiet` leaves out. -/
theorem bindFailureEndsProcess : Obligations.BindFailureEndsProcess := by
  unfold Obligations.BindFailureEndsProcess
  exact fun s code hl hp hk hc => ⟨_, exec_bind_failure hl hp hk hc, rfl⟩

/-- Settles O33: below the limit RECV puts one handler into the table, under the next id. -/
theorem recvSpawnsHandler : Obligations.RecvSpawnsHandler := by
  unfold Obligations.RecvSpawnsHandler
  intro s peer a d hl hp ha hd hbelow
  have hlim : s.limitReached = false := by
    rw [Bool.eq_false_iff, Ne, limitReached_iff]
    rintro ⟨k, hk, hle⟩
    exact absurd (hbelow k hk) (Nat.not_lt.2 hle)
  refine ⟨_, exec_recv_spawn hl hp ha hd hlim, HandlerTable.get?_put_self _ _ _, fun k hk => ?_, rfl⟩
  exact (HandlerTable.get?_put _ _ _ _).trans (if_neg hk)

/-- Settles O34: `limitReached` decides which of RECV's two branches is taken. -/
theorem recvOverLimitRejects : Obligations.RecvOverLimitRejects := by
  unfold Obligations.RecvOverLimitRejects
  intro s peer a d hl hp ha hd
  cases hlim : s.limitReached with
  | true =>
    refine ⟨_, exec_recv_reject hl hp ha hd hlim, fun _ _ _ => rfl, fun hnone => ?_⟩
    obtain ⟨k, hk, -⟩ := limitReached_iff.1 hlim
    rw [hnone] at hk
    cases hk
  | false =>
    refine ⟨_, exec_recv_spawn hl hp ha hd hlim, fun k hk hle => ?_, fun _ => ⟨rfl, rfl⟩⟩
    rw [limitReached_iff.2 ⟨k, hk, hle⟩] at hlim
    cases hlim

/-- Settles O35. -/
theorem receiveFailureGoesOn : Obligations.ReceiveFailureGoesOn := by
  unfold Obligations.ReceiveFailureGoesOn
  exact fun s hl hp => ⟨_, exec_recvFail_of_running hl hp, rfl⟩

/-- Settles O36: PROCESS of a payload that decodes is the encoded reply. -/
theorem handleMakesReplyPending : Obligations.HandleMakesReplyPending := by
  unfold Obligations.HandleMakesReplyPending
  intro s h r q hl hp hg hst hq
  have hprocess : process s.cfg r.payload = .ok (encodeMessage (buildReply s.cfg q)) :=
    process_eq_ok_iff.2 ⟨q, hq, rfl⟩
  refine ⟨_, exec_handle_reply hl hp hg hst hprocess, HandlerTable.get?_put_self _ _ _, fun k hk => ?_, rfl⟩
  exact (HandlerTable.get?_put _ _ _ _).trans (if_neg hk)

theorem process_of_malformed {cfg : Config} {payload : Bytes}
    (h : decodeMessage payload = .err .malformedMessage) : process cfg payload = .err .malformedMessage := by
  rw [process, h, Result.map_err]

/-- Settles O37: the error branch of HANDLE removes the handler. -/
theorem handleDropsMalformed : Obligations.HandleDropsMalformed := by
  unfold Obligations.HandleDropsMalformed
  intro s h r hl hp hg hst herr
  refine ⟨_, exec_handle_drop hl hp hg hst (process_of_malformed herr), HandlerTable.get?_remove_self _ _,
    fun k hk => ?_, rfl⟩
  exact (HandlerTable.get?_remove _ _ _).trans (if_neg hk)

/-- Settles O38: after the write the handler is absent, so no operation of its has a step. -/
theorem sendWritesOnceAndEndsHandler : Obligations.SendWritesOnceAndEndsHandler := by
  unfold Obligations.SendWritesOnceAndEndsHandler
  intro s h r bytes o hl hp hg hst ho
  refine ⟨_, exec_send_write hl hp hg hst (outcomeFits_iff.2 ho), ?_, fun k hk => ?_, ?_, fun i hi => ?_⟩
  · rw [State.mark_handlers, write_handlers, HandlerTable.get?_remove_self]
  · rw [State.mark_handlers, write_handlers, HandlerTable.get?_remove, if_neg hk]
  · rw [State.mark_handlers, write_handlers]
    exact congrArg (State.mark · .moved) (write_quiet s h r.peer bytes o)
  · refine handlerOp_hasNoStep_of_absent hi ?_ ?_
    · rw [State.mark_cfg, write_cfg, hl]
    · rw [State.mark_handlers, write_handlers, HandlerTable.get?_remove_self]

/-- Settles O39: STOP leaves Terminated, where no handler operation has a step. -/
theorem stopEndsProcess : Obligations.StopEndsProcess := by
  unfold Obligations.StopEndsProcess
  refine fun s hl => ⟨fun hp => ⟨exec_stop_of_not_terminated hl hp, fun h i hi => ?_⟩, stop_hasNoStep hl⟩
  exact handlerOp_hasNoStep_of_not_running hi hl (by simp)

/-- Settles O40. -/
theorem noStepOutsideRunning : Obligations.NoStepOutsideRunning := by
  unfold Obligations.NoStepOutsideRunning
  refine fun s hl hp => ⟨fun peer d hpeer => recv_hasNoStep hl hpeer (.inl hp), recvFail_hasNoStep hl hp,
    bind_hasNoStep hl (.inr rfl), fun h i hi => handlerOp_hasNoStep_of_not_running hi hl hp, fun hterm => ?_⟩
  exact ⟨fun answer => bind_hasNoStep hl (.inl (by simp [hterm])), stop_hasNoStep hl hterm,
    fun i hi => codecOp_hasNoStep hi hl hterm⟩

/-- Settles O41: each clause denies a precondition, or an operand's bound (assumption 9). -/
theorem noStepWithoutPrecondition : Obligations.NoStepWithoutPrecondition := by
  unfold Obligations.NoStepWithoutPrecondition
  intro s hl hp
  refine ⟨fun answer => bind_hasNoStep hl (.inl (by simp [hp])),
    fun peer d hpeer hd => recv_hasNoStep hl hpeer (.inr hd), fun h => ⟨fun hg i hi => ?_, fun r hg => ⟨?_, ?_⟩⟩⟩
  · exact handlerOp_hasNoStep_of_absent hi hl hg
  · intro hst o
    exact send_hasNoStep hl (by simp [hg, hst])
  · intro bytes hst
    refine ⟨handle_hasNoStep hl (by simp [hg, hst]), fun n hn => send_hasNoStep hl ?_⟩
    simp [hg, hst, outcomeFits, hn]

/-- Settles O42. -/
theorem resetValues : Obligations.ResetValues := by
  unfold Obligations.ResetValues
  and_intros <;> rfl

end Sys2Proof.Machine
end

