-- ==== Sys2Proof/Proofs/Step.lean ====
section
/-! What a step keeps and what it may change: configuration, trace, phase, `nextId` and port (R31, R32, R34, R37, R38).
Each is a fact of `Effect`; a step is an effect or moves nothing of the block. -/

namespace Sys2Proof.Machine

section
variable {i : Instr} {s t u : State}

/-! ## From effects to steps -/

/-- A step that is no effect of an operation moves only the input to come and the verdict. -/
theorem step_eq_next_still_or_effect (h : step s = .next t) :
    (∃ agenda stream v, t = ((s.withAgenda agenda).withStream stream).mark v) ∨
    ∃ agenda stream i u, s.fetch = .ok (some (i, (s.withAgenda agenda).withStream stream)) ∧
      Effect i ((s.withAgenda agenda).withStream stream) u ∧ t = u.mark .moved := by
  obtain ⟨-, rfl | ⟨i, v, hf, ht⟩⟩ := step_cases h
  · exact .inl ⟨s.agenda, s.stream, .waits, rfl⟩
  · obtain ⟨agenda, stream, rfl⟩ := fetch_rest hf
    obtain rfl | ⟨u, he, rfl⟩ := ht
    · exact .inl ⟨agenda, stream, .noStep, rfl⟩
    · exact .inr ⟨agenda, stream, i, u, hf, he, rfl⟩

/-- A predicate that reads neither the input to come nor the verdict, and that every effect keeps, every step keeps. -/
theorem step_keeps {P : State → Prop}
    (hstill : ∀ s agenda stream v, P s → P (((s.withAgenda agenda).withStream stream).mark v))
    (heffect : ∀ i s u, Effect i s u → P s → P u) (hs : P s) (h : step s = .next t) : P t := by
  obtain ⟨agenda, stream, v, rfl⟩ | ⟨agenda, stream, i, u, -, he, rfl⟩ := step_eq_next_still_or_effect h
  · exact hstill s agenda stream v hs
  · exact hstill u u.agenda u.stream .moved
      (heffect i _ u he (hstill s agenda stream s.verdict hs))

/-! ## What effects keep and change -/

theorem Effect.cfg_eq (h : Effect i s u) : u.cfg = s.cfg := by
  cases h with
  | write => exact write_cfg ..
  | command | bindSuccess | bindFailure | reject | spawn | recvFail | drop | reply | stop => rfl

theorem Effect.trace_eq (h : Effect i s u) : u.trace = s.trace ∨ ∃ e, u.trace = s.trace ++ [e] := by
  cases h with
  | command | reply => exact .inl rfl
  | write => exact .inr ⟨_, write_trace ..⟩
  | bindSuccess | bindFailure | reject | spawn | recvFail | drop | stop => exact .inr ⟨_, rfl⟩

/-- No operation has a step in Terminated (R162). -/
theorem Effect.not_terminated (h : Effect i s u) : s.phase ≠ .terminated := by
  cases h with
  | command _ _ hp => exact hp
  | stop hp => exact hp
  | bindSuccess hp | bindFailure _ hp => simp [hp]
  | reject _ _ _ hp | spawn _ _ _ hp => simp [hp]
  | recvFail hp => simp [hp]
  | drop _ _ hp | reply _ _ _ hp => simp [hp]
  | write _ _ _ _ _ hp => simp [hp]

/-- Only process start is Boot (R34). -/
theorem Effect.phase_ne_boot (h : Effect i s u) (hs : s.phase ≠ .boot) : u.phase ≠ .boot := by
  by_cases hstop : i = .stop
  · subst hstop
    cases h with
    | command _ hi => cases hi
    | stop => exact nofun
  · rwa [h.phase_eq hstop fun hbind => hs hbind.1]

/-- Only a RECV that spawns gives out an id and records an `Rx` (R37). -/
theorem Effect.nextId_cases (h : Effect i s u) :
    (u.nextId = s.nextId ∧ ∀ a d, u.trace ≠ s.trace ++ [.rx s.nextId a d]) ∨
    (u.nextId = s.nextId + 1 ∧ ∃ a d, u.trace = s.trace ++ [.rx s.nextId a d] ∧
      u.handlers.get? s.nextId = some { peer := a, payload := d, stage := .ready }) := by
  cases h with
  | spawn peer a d => exact .inr ⟨rfl, a, d, rfl, HandlerTable.get?_put_self _ _ _⟩
  | write => exact .inl ⟨write_nextId .., by simp⟩
  | command | bindSuccess | bindFailure | reject | recvFail | drop | reply | stop =>
    exact .inl ⟨rfl, by simp [State.takeError]⟩

/-- Only the codec commands write the port (R31; assumption 7). -/
theorem Effect.port_eq (h : Effect i s u) (hi : ¬ CodecOp i) : u.port = s.port := by
  cases h with
  | command _ hcodec => exact absurd hcodec hi
  | write => exact write_port ..
  | bindSuccess | bindFailure | reject | spawn | recvFail | drop | reply | stop => rfl

theorem Effect.eq_withPort (h : Effect i s u) (hi : CodecOp i) : u = s.withPort u.port := by
  cases h with
  | command => rfl
  | bindSuccess | bindFailure | reject | spawn | recvFail | drop | reply | write | stop => cases hi

end

/-! ## The statements -/

theorem exec_keeps_cfg {i : Instr} {s t : State} (h : exec i s = .next t) : t.cfg = s.cfg := by
  obtain ⟨-, rfl | ⟨u, he, rfl⟩⟩ := exec_eq_next h
  · rfl
  · exact he.cfg_eq

/-- Settles O43. -/
theorem configurationNeverChanges : Obligations.ConfigurationNeverChanges := by
  unfold Obligations.ConfigurationNeverChanges
  rintro s t (h | ⟨i, h⟩)
  · obtain ⟨agenda, stream, v, rfl⟩ | ⟨agenda, stream, i, u, -, he, rfl⟩ := step_eq_next_still_or_effect h
    · rfl
    · exact he.cfg_eq
  · exact exec_keeps_cfg h

/-- Settles O44. -/
theorem traceIsAppendOnly : Obligations.TraceIsAppendOnly := by
  unfold Obligations.TraceIsAppendOnly
  intro s t h
  obtain ⟨agenda, stream, v, rfl⟩ | ⟨agenda, stream, i, u, -, he, rfl⟩ := step_eq_next_still_or_effect h
  · exact .inl rfl
  · exact he.trace_eq

/-- Settles O46: a step from Terminated is no effect, so nothing of the block moves. -/
theorem phaseOnlyMovesForward : Obligations.PhaseOnlyMovesForward := by
  unfold Obligations.PhaseOnlyMovesForward
  intro s t h
  obtain ⟨agenda, stream, v, rfl⟩ | ⟨agenda, stream, i, u, -, he, rfl⟩ := step_eq_next_still_or_effect h
  · exact ⟨fun hp => by simp [hp], fun hp => ⟨hp, rfl, rfl⟩⟩
  · exact ⟨fun hp => he.phase_ne_boot (by simp [hp]), fun hp => absurd hp he.not_terminated⟩

/-- Settles O48. -/
theorem nextIdCountsSpawns : Obligations.NextIdCountsSpawns := by
  unfold Obligations.NextIdCountsSpawns
  intro s t h
  obtain ⟨agenda, stream, v, rfl⟩ | ⟨agenda, stream, i, u, -, he, rfl⟩ := step_eq_next_still_or_effect h
  · exact .inl ⟨rfl, by simp⟩
  · exact he.nextId_cases

/-- Settles O49. -/
theorem commandsAndStepsAreApart : Obligations.CommandsAndStepsAreApart := by
  unfold Obligations.CommandsAndStepsAreApart
  intro s t i h
  obtain ⟨-, rfl | ⟨u, he, rfl⟩⟩ := exec_eq_next h
  · exact ⟨fun _ => rfl, fun _ => rfl⟩
  · exact ⟨fun hi => congrArg (State.mark · .moved) (he.eq_withPort hi), he.port_eq⟩

end Sys2Proof.Machine
end

