-- ==== Sys2Proof/Proofs/Invariants.lean ====
section
/-! The table, phase and size invariants (R34–R37, R40, R63, R64): every effect keeps each of them, so every step does.
-/

namespace Sys2Proof.Machine

section
variable {i : Instr} {s u : State}

/-! ## The handler table -/

section
variable {t : HandlerTable} {P : Nat → Handler → Prop}

theorem HandlerTable.forall_get?_put (ht : ∀ k r, t.get? k = some r → P k r) {h : Nat} {x : Handler} (hx : P h x) :
    ∀ k r, (t.put h x).get? k = some r → P k r := by
  intro k r hk
  rw [HandlerTable.get?_put] at hk
  split_ifs at hk with hkh
  · obtain rfl := Option.some.inj hk
    exact hkh ▸ hx
  · exact ht k r hk

theorem HandlerTable.forall_get?_remove (ht : ∀ k r, t.get? k = some r → P k r) (h : Nat) :
    ∀ k r, (t.remove h).get? k = some r → P k r := by
  intro k r hk
  rw [HandlerTable.get?_remove] at hk
  split_ifs at hk
  exact ht k r hk

end

theorem Effect.keeps_tableInv (he : Effect i s u) (hs : TableInv s) : TableInv u := by
  obtain ⟨hw, hbelow⟩ := hs
  cases he with
  | spawn =>
    exact ⟨HandlerTable.put_wf _ _ _ hw,
      HandlerTable.forall_get?_put (fun k r hk => Nat.lt_succ_of_lt (hbelow k r hk)) (Nat.lt_succ_self _)⟩
  | reply h r b _ hg =>
    exact ⟨HandlerTable.put_wf _ _ _ hw, HandlerTable.forall_get?_put hbelow (hbelow h r hg)⟩
  | drop h => exact ⟨HandlerTable.remove_wf _ h hw, HandlerTable.forall_get?_remove hbelow h⟩
  | write h =>
    rw [TableInv, write_handlers, write_nextId]
    exact ⟨HandlerTable.remove_wf _ h hw, HandlerTable.forall_get?_remove hbelow h⟩
  | command | bindSuccess | bindFailure | reject | recvFail | stop => exact ⟨hw, hbelow⟩

/-! ## Phase, socket and exit status -/

theorem Effect.keeps_phaseInv (he : Effect i s u) (hs : PhaseInv s) : PhaseInv u := by
  obtain ⟨hboot, hrunning, hexit⟩ := hs
  cases he with
  | command => exact ⟨hboot, hrunning, hexit⟩
  | bindSuccess hp =>
    obtain ⟨-, -, -, -, hnone⟩ := hboot hp
    exact ⟨nofun, fun _ => ⟨rfl, hnone⟩, by simp [hnone]⟩
  | bindFailure code hp _ hc =>
    refine ⟨nofun, nofun, fun c h => ?_⟩
    obtain rfl : code = c := Option.some.inj h
    exact ⟨hc, rfl⟩
  | stop => exact ⟨nofun, nofun, fun c h => ⟨(hexit c h).1, rfl⟩⟩
  | write h a d b o hp =>
    rw [PhaseInv, write_phase, write_sock, write_cfg, write_exit]
    exact ⟨by simp [hp], hrunning, hexit⟩
  | reject _ _ _ hp | spawn _ _ _ hp | reply _ _ _ hp | recvFail hp | drop _ _ hp =>
    exact ⟨fun hb => (nomatch hp.symm.trans hb), hrunning, hexit⟩

/-! ## Sizes -/

theorem Effect.keeps_sizeInv (he : Effect i s u) (hs : SizeInv s) : SizeInv u := by
  obtain ⟨hstaging, hlive⟩ := hs
  cases he with
  | reject _ _ _ _ _ hd => exact ⟨hd, hlive⟩
  | spawn _ a d _ _ hd => exact ⟨hd, HandlerTable.forall_get?_put hlive ⟨hd, nofun⟩⟩
  | reply h r b _ hg _ hb =>
    refine ⟨hstaging, HandlerTable.forall_get?_put hlive ⟨(hlive h r hg).1, ?_⟩⟩
    rintro _ ⟨⟩
    exact process_length_le hb
  | drop h => exact ⟨hstaging, HandlerTable.forall_get?_remove hlive h⟩
  | write h =>
    rw [SizeInv, write_staging, write_cfg, write_handlers]
    exact ⟨hstaging, HandlerTable.forall_get?_remove hlive h⟩
  | command | bindSuccess | bindFailure | recvFail | stop => exact ⟨hstaging, hlive⟩

end

/-! ## The statements -/

/-- Settles O54. -/
theorem stepKeepsTableInv : Obligations.StepKeepsTableInv := by
  unfold Obligations.StepKeepsTableInv
  exact fun s t hs h => step_keeps (fun _ _ _ _ hs => hs) (fun _ _ _ he => he.keeps_tableInv) hs h

/-- Settles O55. -/
theorem stepKeepsPhaseInv : Obligations.StepKeepsPhaseInv := by
  unfold Obligations.StepKeepsPhaseInv
  exact fun s t hs h => step_keeps (fun _ _ _ _ hs => hs) (fun _ _ _ he => he.keeps_phaseInv) hs h

/-- Settles O56. -/
theorem stepKeepsSizeInv : Obligations.StepKeepsSizeInv := by
  unfold Obligations.StepKeepsSizeInv
  exact fun s t hs h => step_keeps (fun _ _ _ _ hs => hs) (fun _ _ _ he => he.keeps_sizeInv) hs h

end Sys2Proof.Machine
end

