-- ==== Sys2Proof/Proofs/Isolation.lean ====
section
/-! Handlers do not touch each other (R36, R58, R186, R188): a handler's entry changes by its own operations only, what
HANDLE makes of it depends on its payload and the configuration, and operations of different handlers commute. -/

namespace Sys2Proof.Machine

section
variable {i : Instr} {s t u : State} {h : Nat} {r : Handler}

/-! ## A handler's entry changes by its own operations only -/

theorem Effect.get?_eq_or_handlerOp (he : Effect i s u) (hs : TableInv s) (hg : s.handlers.get? h = some r) :
    u.handlers.get? h = some r ∨
    HandlerOp h i ∧ ∀ r', u.handlers.get? h = some r' → r'.peer = r.peer ∧ r'.payload = r.payload := by
  cases he with
  | spawn =>
    have hne : h ≠ s.nextId := Nat.ne_of_lt (hs.2 h r hg)
    exact .inl ((HandlerTable.get?_put ..).trans ((if_neg hne).trans hg))
  | reply k x b _ hk =>
    by_cases hhk : h = k
    · subst hhk
      obtain rfl : x = r := Option.some.inj (hk.symm.trans hg)
      refine .inr ⟨.handle, fun r' hr' => ?_⟩
      obtain rfl := Option.some.inj ((HandlerTable.get?_put_self ..).symm.trans hr')
      exact ⟨rfl, rfl⟩
    · exact .inl ((HandlerTable.get?_put ..).trans ((if_neg hhk).trans hg))
  | drop k =>
    by_cases hhk : h = k
    · subst hhk
      exact .inr ⟨.handle, by simp [State.takeError]⟩
    · exact .inl ((HandlerTable.get?_remove ..).trans ((if_neg hhk).trans hg))
  | write k a d b o =>
    rw [write_handlers]
    by_cases hhk : h = k
    · subst hhk
      exact .inr ⟨.send o, by simp⟩
    · exact .inl ((HandlerTable.get?_remove ..).trans ((if_neg hhk).trans hg))
  | command | bindSuccess | bindFailure | reject | recvFail | stop => exact .inl hg

/-! ## What a handler's operation makes of its handler -/

theorem Takes.effect (h : Takes i s t) : ∃ u, Effect i s u ∧ t = u.mark .moved := by
  obtain ⟨hexec, hverdict⟩ := h
  obtain ⟨-, rfl | hu⟩ := exec_eq_next hexec
  · cases hverdict
  · exact hu

theorem Takes.legal (h : Takes i s t) : s.cfg.legal = true :=
  (exec_eq_next h.1).1

theorem takes_of_exec_eq_moved (h : exec i s = moved u) : Takes i s (u.mark .moved) :=
  ⟨h, rfl⟩

theorem Takes.unique (ht : Takes i s t) (hu : Takes i s u) : t = u :=
  Host.Outcome.next.inj (ht.1.symm.trans hu.1)

/-- The stage after HANDLE, `none` where the handler is gone, from what PROCESS gives. -/
def stageAfterHandle (reply : Result BlockError Bytes) : Option Stage :=
  match reply with
  | .ok b => some (.pending b)
  | .err _ => none

theorem Takes.stage_after_handle (ht : Takes (.handle h) s t) (hg : s.handlers.get? h = some r) :
    (t.handlers.get? h).map Handler.stage = stageAfterHandle (process s.cfg r.payload) := by
  obtain ⟨u, he, rfl⟩ := ht.effect
  cases he with
  | command _ hi => cases hi
  | drop _ x _ hx _ herr =>
    obtain rfl : x = r := Option.some.inj (hx.symm.trans hg)
    rw [herr]
    exact congrArg (Option.map Handler.stage) (HandlerTable.get?_remove_self _ _)
  | reply _ x b _ hx _ hb =>
    obtain rfl : x = r := Option.some.inj (hx.symm.trans hg)
    rw [hb]
    exact congrArg (Option.map Handler.stage) (HandlerTable.get?_put_self _ _ _)

end

/-! ## Operations of different handlers commute -/

/-- Put `x` for the entry of `h`; `none` removes it. -/
def HandlerTable.set (t : HandlerTable) (h : Nat) (x : Option Handler) : HandlerTable :=
  match x with
  | some r => t.put h r
  | none => t.remove h

theorem HandlerTable.get?_set (t : HandlerTable) (h k : Nat) (x : Option Handler) :
    (t.set h x).get? k = if k = h then x else t.get? k := by
  cases x with
  | some r => exact HandlerTable.get?_put t h k r
  | none => exact HandlerTable.get?_remove t h k

theorem HandlerTable.set_wf {t : HandlerTable} (hw : t.wf) (h : Nat) (x : Option Handler) : (t.set h x).wf := by
  cases x with
  | some r => exact HandlerTable.put_wf t h r hw
  | none => exact HandlerTable.remove_wf t h hw

theorem HandlerTable.set_comm {t : HandlerTable} (hw : t.wf) {h k : Nat} (hne : h ≠ k) (x y : Option Handler) :
    (t.set h x).set k y = (t.set k y).set h x := by
  refine HandlerTable.ext (set_wf (set_wf hw h x) k y) (set_wf (set_wf hw k y) h x) fun j => ?_
  simp only [HandlerTable.get?_set]
  split_ifs with hk hh
  · exact absurd (hh.symm.trans hk) hne
  · rfl
  · rfl
  · rfl

/-- What an operation of handler `h` leaves, but the diagnostics: `x` for its entry, and the events `es`. -/
def State.afterHandlerOp (s : State) (h : Nat) (x : Option Handler) (es : List Event) : State :=
  State.quiet { s with handlers := s.handlers.set h x, trace := s.trace ++ es, verdict := .moved }

/-- Operation `i` has the same step, with the same new entry `x` of handler `h` and the same events `es`, in every state
that agrees with `s` on configuration, phase and that handler. -/
def HandlerOpIsLocal (i : Instr) (h : Nat) (s : State) (x : Option Handler) (es : List Event) : Prop :=
  ∀ s', s'.cfg = s.cfg → s'.phase = s.phase → s'.handlers.get? h = s.handlers.get? h →
    ∃ a', Takes i s' a' ∧ a'.quiet = s'.afterHandlerOp h x es

section
variable {i : Instr} {s a : State} {h : Nat}

theorem Takes.handlerOp_isLocal (hi : HandlerOp h i) (ht : Takes i s a) : ∃ x es, HandlerOpIsLocal i h s x es := by
  have hl := ht.legal
  obtain ⟨u, he, rfl⟩ := ht.effect
  cases he with
  | drop k r hp hg hst herr =>
    cases hi
    refine ⟨none, [.drop h], fun s' hcfg hphase hget => ?_⟩
    rw [← hcfg] at hl herr
    exact ⟨_, takes_of_exec_eq_moved
      (exec_handle_drop hl (hphase.trans hp) (hget.trans hg) hst herr), rfl⟩
  | reply k r b hp hg hst hb =>
    cases hi
    refine ⟨some { r with stage := .pending b }, [], fun s' hcfg hphase hget => ?_⟩
    rw [← hcfg] at hl hb
    refine ⟨_, takes_of_exec_eq_moved
      (exec_handle_reply hl (hphase.trans hp) (hget.trans hg) hst hb), ?_⟩
    rw [State.afterHandlerOp, List.append_nil]
    rfl
  | write k p d b o hp hg ho =>
    cases hi
    refine ⟨none, [.tx h p b o], fun s' hcfg hphase hget => ?_⟩
    rw [← hcfg] at hl
    refine ⟨_, takes_of_exec_eq_moved
      (exec_send_write hl (hphase.trans hp) (hget.trans hg) rfl ho), ?_⟩
    exact congrArg (State.mark · .moved) (write_quiet s' h p b o)
  | command _ hc => cases hc <;> cases hi
  | bindSuccess | bindFailure | reject | spawn | recvFail | stop => cases hi

/-- In the state it was taken in, the operation left just that. -/
theorem HandlerOpIsLocal.quiet_eq {x : Option Handler} {es : List Event} (hlocal : HandlerOpIsLocal i h s x es)
    (ht : Takes i s a) : a.quiet = s.afterHandlerOp h x es := by
  obtain ⟨a', ht', hq⟩ := hlocal s rfl rfl rfl
  rwa [ht.unique ht']

/-- After an operation of one handler, what those of another look at is as before. -/
theorem HandlerOpIsLocal.takes_after {k : Nat} {x y : Option Handler} {es fs : List Event}
    (hlocal : HandlerOpIsLocal i k s y fs) (hne : k ≠ h) (ha : a.quiet = s.afterHandlerOp h x es) :
    ∃ b, Takes i a b ∧ b.quiet = (s.afterHandlerOp h x es).afterHandlerOp k y fs := by
  have hcfg : a.cfg = s.cfg := (congrArg State.cfg ha :)
  have hphase : a.phase = s.phase := (congrArg State.phase ha :)
  have hhandlers : a.handlers = s.handlers.set h x := (congrArg State.handlers ha :)
  obtain ⟨b, hb, hq⟩ := hlocal a hcfg hphase (by rw [hhandlers, HandlerTable.get?_set, if_neg hne])
  have hquiet : a.afterHandlerOp k y fs = a.quiet.afterHandlerOp k y fs := rfl
  exact ⟨b, hb, by rw [hq, hquiet, ha]⟩

end

/-! ## The statements -/

/-- Settles O50. -/
theorem handlersAreIsolated : Obligations.HandlersAreIsolated := by
  unfold Obligations.HandlersAreIsolated
  intro s t h r hs hstep hg
  obtain ⟨agenda, stream, v, rfl⟩ | ⟨agenda, stream, i, u, hf, he, rfl⟩ := step_eq_next_still_or_effect hstep
  · exact .inl hg
  · obtain hsame | ⟨hi, hkept⟩ := he.get?_eq_or_handlerOp hs hg
    · exact .inl hsame
    · exact .inr ⟨i, _, hf, hi, hkept⟩

/-- Settles O51. -/
theorem replyDependsOnPayloadOnly : Obligations.ReplyDependsOnPayloadOnly := by
  unfold Obligations.ReplyDependsOnPayloadOnly
  intro s s' t t' h h' r r' hcfg hg hg' hpayload ht ht'
  rw [ht.stage_after_handle hg, ht'.stage_after_handle hg', hcfg, hpayload]

/-- Settles O52: each operation is local to its handler, so it can be taken after the other; the two updates of the
table commute, and the events change places. -/
theorem handlerStepsCommute : Obligations.HandlerStepsCommute := by
  unfold Obligations.HandlerStepsCommute
  intro s a b h k i j hw hne hi hj ha hb
  obtain ⟨x, es, hilocal⟩ := ha.handlerOp_isLocal hi
  obtain ⟨y, fs, hjlocal⟩ := hb.handlerOp_isLocal hj
  obtain ⟨ab, hab, habq⟩ := hjlocal.takes_after hne.symm (hilocal.quiet_eq ha)
  obtain ⟨ba, hba, hbaq⟩ := hilocal.takes_after hne (hjlocal.quiet_eq hb)
  refine ⟨ab, ba, hab, hba, ?_, ?_⟩
  · have hforget {c d : State} (hc : c.quiet = d) :
        State.quiet { c with trace := [] } = { d with trace := [] } := by rw [← hc]; rfl
    rw [hforget habq, hforget hbaq]
    simp only [State.afterHandlerOp, State.quiet, HandlerTable.set_comm hw hne]
  · have htrace : ab.trace = s.trace ++ es ++ fs := (congrArg State.trace habq :)
    have htrace' : ba.trace = s.trace ++ fs ++ es := (congrArg State.trace hbaq :)
    rw [htrace, htrace', List.append_assoc, List.append_assoc]
    exact List.perm_append_comm.append_left s.trace

end Sys2Proof.Machine
end

