-- ==== Sys2Proof/Proofs/Flow.lean ====
section
/-! The flow invariant (R189): trace and handler table agree. A step adds at most one event, so each clause about the
places of events in the trace is shown once, for one event added at the end; what remains of each effect is what it adds
and what it does to the table. -/

namespace Sys2Proof.Machine

/-! ## One event at the end of a list -/

theorem concat_eq_append_cons {α : Type} {l pre post : List α} {e x : α} (h : l ++ [e] = pre ++ x :: post) :
    (pre = l ∧ x = e) ∧ post = [] ∨ ∃ post', post = post' ++ [e] ∧ l = pre ++ x :: post' := by
  obtain rfl | ⟨post', y, rfl⟩ := List.eq_nil_or_concat' post
  · obtain ⟨rfl, hx⟩ := List.append_inj' h rfl
    exact .inl ⟨⟨rfl, (List.cons.inj hx).1.symm⟩, rfl⟩
  · rw [← List.cons_append, ← List.append_assoc] at h
    obtain ⟨rfl, hy⟩ := List.append_inj' h rfl
    exact .inr ⟨post', by rw [(List.cons.inj hy).1], rfl⟩

theorem forall_mem_append_concat {α : Type} {P : α → Prop} {pre post : List α} {e : α}
    (h : ∀ x ∈ pre ++ post, P x) (he : P e) : ∀ x ∈ pre ++ (post ++ [e]), P x := by
  rw [← List.append_assoc]
  intro x hx
  obtain hx | hx := List.mem_append.1 hx
  · exact h x hx
  · rwa [List.mem_singleton.1 hx]

/-! ## What the invariant says of ids -/

namespace FlowInv

section
variable {s t : State} {h : Nat}

/-- Two `Rx` of one id are the same event. -/
theorem rx_unique (hs : FlowInv s) {a a' : Addr} {d d' : Bytes} (hmem : .rx h a d ∈ s.trace)
    (hmem' : .rx h a' d' ∈ s.trace) : a' = a ∧ d' = d := by
  obtain ⟨pre, post, hsplit⟩ := List.mem_iff_append.1 hmem
  rw [hsplit] at hmem'
  obtain hpre | hcons := List.mem_append.1 hmem'
  · exact absurd rfl (hs.rxOnce _ _ _ _ _ hsplit _ (List.mem_append_left _ hpre))
  · obtain heq | hpost := List.mem_cons.1 hcons
    · cases heq
      exact ⟨rfl, rfl⟩
    · exact absurd rfl (hs.rxOnce _ _ _ _ _ hsplit _ (List.mem_append_right _ hpost))

theorem exists_rx_of_tx (hs : FlowInv s) {a : Addr} {b : Bytes} {o : WriteOutcome} (hmem : .tx h a b o ∈ s.trace) :
    ∃ d, .rx h a d ∈ s.trace ∧ process s.cfg d = .ok b := by
  obtain ⟨pre, post, hsplit⟩ := List.mem_iff_append.1 hmem
  obtain ⟨⟨d, hd, hb⟩, -⟩ := hs.tx _ _ _ _ _ _ hsplit
  exact ⟨d, by rw [hsplit]; exact List.mem_append_left _ hd, hb⟩

theorem exists_rx_of_drop (hs : FlowInv s) (hmem : .drop h ∈ s.trace) :
    ∃ a d, .rx h a d ∈ s.trace ∧ process s.cfg d = .err .malformedMessage := by
  obtain ⟨pre, post, hsplit⟩ := List.mem_iff_append.1 hmem
  obtain ⟨⟨a, d, hd, herr⟩, -⟩ := hs.drop _ _ _ hsplit
  exact ⟨a, d, by rw [hsplit]; exact List.mem_append_left _ hd, herr⟩

theorem exists_rx_of_ends (hs : FlowInv s) {e : Event} (he : e ∈ s.trace) (hends : e.Ends h) :
    ∃ a d, .rx h a d ∈ s.trace := by
  cases e with
  | drop k =>
    obtain rfl : k = h := hends
    obtain ⟨a, d, hrx, -⟩ := hs.exists_rx_of_drop he
    exact ⟨a, d, hrx⟩
  | tx k a b o =>
    obtain rfl : k = h := hends
    obtain ⟨d, hrx, -⟩ := hs.exists_rx_of_tx he
    exact ⟨a, d, hrx⟩
  | bound | fatal | rx | reject | rxFail | stopped => cases hends

theorem lt_nextId_of_opens (hs : FlowInv s) {e : Event} (he : e ∈ s.trace) (hopens : e.Opens h) : h < s.nextId := by
  cases e with
  | rx k a d =>
    obtain rfl : k = h := hopens
    exact hs.rxBelow _ _ _ he
  | bound | fatal | reject | rxFail | drop | tx | stopped => cases hopens

theorem not_ends_nextId (hs : FlowInv s) : ∀ e ∈ s.trace, ¬ e.Ends s.nextId := by
  intro e he hends
  obtain ⟨a, d, hrx⟩ := hs.exists_rx_of_ends he hends
  exact lt_irrefl _ (hs.rxBelow _ _ _ hrx)

/-! ## States that differ in what the invariant does not read -/

theorem congr (hs : FlowInv s) (hcfg : t.cfg = s.cfg) (hhandlers : t.handlers = s.handlers)
    (hnextId : t.nextId = s.nextId) (htrace : t.trace = s.trace) : FlowInv t := by
  obtain ⟨htable, hbelow, honce, hlive, hgone, htx, hdrop⟩ := hs
  unfold TableInv at htable
  rw [← hhandlers, ← hnextId] at htable
  rw [← htrace, ← hnextId] at hbelow
  rw [← htrace] at honce
  rw [← htrace, ← hhandlers, ← hcfg] at hlive
  rw [← htrace, ← hhandlers] at hgone
  rw [← htrace, ← hcfg] at htx hdrop
  exact ⟨htable, hbelow, honce, hlive, hgone, htx, hdrop⟩

/-! ## One event more -/

/-- What the event added must satisfy, given the clauses about the table: an `Rx` carries a new id, and the end of a
flow is its first end and follows from its `Rx`. -/
theorem extend {e : Event} (hs : FlowInv s) (hcfg : t.cfg = s.cfg) (htrace : t.trace = s.trace ++ [e])
    (hnextId : s.nextId ≤ t.nextId) (htable : TableInv t)
    (hlive : ∀ h r, t.handlers.get? h = some r →
      .rx h r.peer r.payload ∈ s.trace ++ [e] ∧ (∀ x ∈ s.trace ++ [e], ¬ x.Ends h) ∧
        ∀ b, r.stage = .pending b → process s.cfg r.payload = .ok b)
    (hgone : ∀ h a d, .rx h a d ∈ s.trace ++ [e] → t.handlers.get? h = none → ∃ x ∈ s.trace ++ [e], x.Ends h)
    (hopens : ∀ h, e.Opens h → s.nextId ≤ h ∧ h < t.nextId)
    (hends : ∀ h, e.Ends h → ∀ x ∈ s.trace, ¬ x.Ends h)
    (htx : ∀ h a b o, e = .tx h a b o → ∃ d, .rx h a d ∈ s.trace ∧ process s.cfg d = .ok b)
    (hdrop : ∀ h, e = .drop h → ∃ a d, .rx h a d ∈ s.trace ∧ process s.cfg d = .err .malformedMessage) :
    FlowInv t where
  table := htable
  rxBelow := by
    intro h a d hmem
    rw [htrace] at hmem
    obtain hold | hnew := List.mem_append.1 hmem
    · exact (hs.rxBelow h a d hold).trans_le hnextId
    · obtain rfl := List.mem_singleton.1 hnew
      exact (hopens h rfl).2
  rxOnce := by
    intro pre post h a d hsplit
    rw [htrace] at hsplit
    obtain ⟨⟨rfl, rfl⟩, rfl⟩ | ⟨post, rfl, hold⟩ := concat_eq_append_cons hsplit
    · rw [List.append_nil]
      intro x hx hxopens
      exact Nat.not_le.2 (hs.lt_nextId_of_opens hx hxopens) (hopens h rfl).1
    · have hmem : .rx h a d ∈ s.trace := by simp [hold]
      exact forall_mem_append_concat (hs.rxOnce pre post h a d hold) fun heopens =>
        Nat.not_le.2 (hs.rxBelow h a d hmem) (hopens h heopens).1
  live := by rwa [htrace, hcfg]
  gone := by rwa [htrace]
  tx := by
    intro pre post h a b o hsplit
    rw [htrace] at hsplit
    rw [hcfg]
    obtain ⟨⟨rfl, rfl⟩, rfl⟩ | ⟨post, rfl, hold⟩ := concat_eq_append_cons hsplit
    · rw [List.append_nil]
      exact ⟨htx h a b o rfl, hends h rfl⟩
    · obtain ⟨hrx, honly⟩ := hs.tx pre post h a b o hold
      exact ⟨hrx, forall_mem_append_concat honly fun heends => hends h heends (.tx h a b o) (by simp [hold]) rfl⟩
  drop := by
    intro pre post h hsplit
    rw [htrace] at hsplit
    rw [hcfg]
    obtain ⟨⟨rfl, rfl⟩, rfl⟩ | ⟨post, rfl, hold⟩ := concat_eq_append_cons hsplit
    · rw [List.append_nil]
      exact ⟨hdrop h rfl, hends h rfl⟩
    · obtain ⟨hrx, honly⟩ := hs.drop pre post h hold
      exact ⟨hrx, forall_mem_append_concat honly fun heends => hends h heends (.drop h) (by simp [hold]) rfl⟩

end

/-! ## The effects -/

section
variable {s : State} {h : Nat} {r : Handler}

/-- An event that neither opens nor ends a flow, and a table as it was. -/
theorem emit_neutral (hs : FlowInv s) {e : Event} (hopens : ∀ h, ¬ e.Opens h) (hends : ∀ h, ¬ e.Ends h) :
    FlowInv (s.emit e) := by
  refine hs.extend rfl rfl le_rfl hs.table (fun h r hg => ?_) (fun h a d hmem hg => ?_)
    (fun h ho => absurd ho (hopens h)) (fun h he => absurd he (hends h)) ?_ ?_
  · obtain ⟨hrx, hnot, hpending⟩ := hs.live h r hg
    refine ⟨List.mem_append_left _ hrx, fun x hx => ?_, hpending⟩
    obtain hx | hx := List.mem_append.1 hx
    · exact hnot x hx
    · rw [List.mem_singleton.1 hx]
      exact hends h
  · obtain hold | hnew := List.mem_append.1 hmem
    · obtain ⟨x, hx, hxends⟩ := hs.gone h a d hold hg
      exact ⟨x, List.mem_append_left _ hx, hxends⟩
    · exact absurd (List.mem_singleton.1 hnew ▸ rfl) (hopens h)
  · rintro h a b o rfl
    exact absurd rfl (hends h)
  · rintro h rfl
    exact absurd rfl (hends h)

/-- The new handler's flow begins; no event is of its id yet. -/
theorem spawn (hs : FlowInv s) (a : Addr) (htable : TableInv (s.spawn a)) : FlowInv (s.spawn a) := by
  refine hs.extend rfl rfl (Nat.le_succ _) htable (fun k x hk => ?_) (fun k a' d' hmem hk => ?_) ?_ nofun nofun nofun
  · replace hk := (HandlerTable.get?_put ..).symm.trans hk
    have hnot {k : Nat} (hold : ∀ e ∈ s.trace, ¬ e.Ends k) :
        ∀ e ∈ s.trace ++ [.rx s.nextId a s.staging], ¬ e.Ends k := by
      intro e he
      obtain he | he := List.mem_append.1 he
      · exact hold e he
      · rw [List.mem_singleton.1 he]
        exact nofun
    split_ifs at hk with hkn
    · obtain rfl := Option.some.inj hk
      subst hkn
      exact ⟨List.mem_append_right _ (List.mem_singleton.2 rfl), hnot hs.not_ends_nextId, nofun⟩
    · obtain ⟨hrx, hold, hpending⟩ := hs.live k x hk
      exact ⟨List.mem_append_left _ hrx, hnot hold, hpending⟩
  · replace hk := (HandlerTable.get?_put ..).symm.trans hk
    split_ifs at hk with hkn
    obtain hold | hnew := List.mem_append.1 hmem
    · obtain ⟨e, he, hends⟩ := hs.gone k a' d' hold hk
      exact ⟨e, List.mem_append_left _ he, hends⟩
    · cases List.mem_singleton.1 hnew
      exact absurd rfl hkn
  · rintro k ⟨⟩
    exact ⟨le_rfl, Nat.lt_succ_self _⟩

/-- A live handler's flow ends with event `e`, and the handler is gone. -/
theorem end_handler (hs : FlowInv s) (hg : s.handlers.get? h = some r) {e : Event} (hends : ∀ k, e.Ends k ↔ h = k)
    (hopens : ∀ k, ¬ e.Opens k)
    (htx : ∀ a b o, e = .tx h a b o → a = r.peer ∧ process s.cfg r.payload = .ok b)
    (hdrop : e = .drop h → process s.cfg r.payload = .err .malformedMessage) :
    FlowInv ((s.emit e).withHandlers (s.handlers.remove h)) := by
  obtain ⟨hw, hbelow⟩ := hs.table
  obtain ⟨hrx, hnot, -⟩ := hs.live h r hg
  refine hs.extend rfl rfl le_rfl
    ⟨HandlerTable.remove_wf _ h hw, HandlerTable.forall_get?_remove hbelow h⟩
    (fun k x hk => ?_) (fun k a d hmem hk => ?_) (fun k ho => absurd ho (hopens k)) ?_ ?_ ?_
  · replace hk := (HandlerTable.get?_remove ..).symm.trans hk
    split_ifs at hk with hkh
    obtain ⟨hrx', hnot', hpending⟩ := hs.live k x hk
    refine ⟨List.mem_append_left _ hrx', fun y hy => ?_, hpending⟩
    obtain hy | hy := List.mem_append.1 hy
    · exact hnot' y hy
    · rw [List.mem_singleton.1 hy, hends]
      exact Ne.symm hkh
  · replace hk := (HandlerTable.get?_remove ..).symm.trans hk
    by_cases hkh : k = h
    · exact ⟨e, List.mem_append_right _ (List.mem_singleton.2 rfl), (hends k).2 hkh.symm⟩
    · rw [if_neg hkh] at hk
      obtain hold | hnew := List.mem_append.1 hmem
      · obtain ⟨y, hy, hyends⟩ := hs.gone k a d hold hk
        exact ⟨y, List.mem_append_left _ hy, hyends⟩
      · exact absurd (List.mem_singleton.1 hnew ▸ rfl) (hopens k)
  · intro k hk
    obtain rfl := (hends k).1 hk
    exact hnot
  · rintro k a b o rfl
    obtain rfl := (hends k).1 rfl
    obtain ⟨rfl, hb⟩ := htx a b o rfl
    exact ⟨r.payload, hrx, hb⟩
  · rintro k rfl
    obtain rfl := (hends k).1 rfl
    exact ⟨r.peer, r.payload, hrx, hdrop rfl⟩

/-- A handler's reply becomes PROCESS of its payload; no event is added. -/
theorem put_pending (hs : FlowInv s) (hg : s.handlers.get? h = some r) {b : Bytes}
    (hb : process s.cfg r.payload = .ok b) :
    FlowInv (s.withHandlers (s.handlers.put h { r with stage := .pending b })) := by
  obtain ⟨⟨hw, hbelow⟩, hrxBelow, hrxOnce, hlive, hgone, htx, hdrop⟩ := hs
  refine ⟨⟨HandlerTable.put_wf _ _ _ hw, HandlerTable.forall_get?_put hbelow (hbelow h r hg)⟩, hrxBelow, hrxOnce,
    HandlerTable.forall_get?_put hlive ?_, fun k a d hmem hk => ?_, htx, hdrop⟩
  · obtain ⟨hrx, hnot, -⟩ := hlive h r hg
    refine ⟨hrx, hnot, ?_⟩
    rintro _ ⟨⟩
    exact hb
  · replace hk := (HandlerTable.get?_put ..).symm.trans hk
    split_ifs at hk
    exact hgone k a d hmem hk

end

end FlowInv

theorem Effect.keeps_flowInv {i : Instr} {s u : State} (he : Effect i s u) (hs : FlowInv s) : FlowInv u := by
  have htable := he.keeps_tableInv hs.table
  cases he with
  | command => exact hs.congr rfl rfl rfl rfl
  | bindSuccess | bindFailure | reject | recvFail | stop =>
    exact (hs.emit_neutral (fun _ => id) (fun _ => id)).congr rfl rfl rfl rfl
  | spawn peer a d =>
    exact ((hs.congr (t := s.withStaging d) rfl rfl rfl rfl).spawn a htable).congr rfl rfl rfl rfl
  | drop h r _ hg _ herr =>
    exact (hs.end_handler hg (e := .drop h) (fun _ => Iff.rfl) (fun _ => id) nofun fun _ => herr).congr rfl rfl rfl rfl
  | reply h r b _ hg _ hb => exact (hs.put_pending hg hb).congr rfl rfl rfl rfl
  | write h a d b o _ hg =>
    obtain ⟨-, -, hpending⟩ := hs.live h _ hg
    have hend := hs.end_handler hg (e := .tx h a b o) (fun _ => Iff.rfl) (fun _ => id)
      (by rintro _ _ _ ⟨⟩; exact ⟨rfl, hpending b rfl⟩) nofun
    exact hend.congr (write_cfg ..) (write_handlers ..) (write_nextId ..) (write_trace ..)

/-- Settles O57: each effect adds an event that meets `FlowInv.extend`, or none. -/
theorem stepKeepsFlowInv : Obligations.StepKeepsFlowInv := by
  unfold Obligations.StepKeepsFlowInv
  exact fun s t hs h =>
    step_keeps (fun _ _ _ _ hs => hs.congr rfl rfl rfl rfl) (fun _ _ _ he => he.keeps_flowInv) hs h

end Sys2Proof.Machine
end

