-- ==== Sys2Proof/Proofs/Runs.lean ====
section
/-! The laws of runs (R187, R189, R207): every start meets the invariants and every turn keeps them, so the per-flow law
and the shape of every write hold of each reachable state; and in a weakly fair run every handler ends. -/

namespace Sys2Proof.Machine

/-! ## Reachable states -/

theorem Starts.flowInv {s : State} (h : Starts s) : FlowInv s := by
  obtain ⟨cfg, agenda, stream, peers, rfl⟩ := h
  refine ⟨⟨List.Pairwise.nil, nofun⟩, nofun, ?_, nofun, nofun, ?_, ?_⟩ <;>
    (intros; exact absurd ‹_ = _ ++ _ :: _› (by simp [State.reset]))

/-- Settles O53: nothing has happened at a start. -/
theorem startsMeetInvariants : Obligations.StartsMeetInvariants := by
  unfold Obligations.StartsMeetInvariants
  intro s h
  have hflow := h.flowInv
  obtain ⟨cfg, agenda, stream, peers, rfl⟩ := h
  exact ⟨hflow.table, ⟨fun _ => ⟨rfl, rfl, rfl, rfl, rfl⟩, nofun, nofun⟩, ⟨Nat.zero_le _, nofun⟩, hflow⟩

theorem Reachable.flowInv {s : State} (h : Reachable s) : FlowInv s := by
  induction h with
  | start hstart => exact hstart.flowInv
  | @turn s t _ hturn ih =>
    obtain ⟨agenda, stream, peers, hstep⟩ := hturn
    have hgiven : FlowInv (s.given agenda stream peers) := ih.congr rfl rfl rfl rfl
    exact stepKeepsFlowInv _ _ hgiven hstep

/-! ## The per-flow law -/

section
variable {s : State} {h : Nat} {a : Addr} {d : Bytes}

/-- A `Tx` of a flow is PROCESS of the datagram of its `Rx`. -/
theorem FlowInv.process_of_tx (hs : FlowInv s) (hrx : .rx h a d ∈ s.trace) {a' : Addr} {b : Bytes} {o : WriteOutcome}
    (htx : .tx h a' b o ∈ s.trace) : process s.cfg d = .ok b := by
  obtain ⟨d', hrx', hb⟩ := hs.exists_rx_of_tx htx
  obtain ⟨rfl, rfl⟩ := hs.rx_unique hrx hrx'
  exact hb

/-- A malformed datagram whose handler is not Ready was dropped: it never has a reply, so the handler is gone, and its
flow did not end with a `Tx`. -/
theorem FlowInv.drop_mem_of_malformed (hs : FlowInv s) (hrx : .rx h a d ∈ s.trace)
    (herr : process s.cfg d = .err .malformedMessage)
    (hhandled : ∀ r, s.handlers.get? h = some r → r.stage ≠ .ready) : .drop h ∈ s.trace := by
  cases hg : s.handlers.get? h with
  | some r =>
    obtain ⟨hrx', -, hpending⟩ := hs.live h r hg
    obtain ⟨-, hd⟩ := hs.rx_unique hrx hrx'
    cases hst : r.stage with
    | ready => exact absurd hst (hhandled r hg)
    | pending b =>
      have hok := hpending b hst
      rw [hd, herr] at hok
      cases hok
  | none =>
    obtain ⟨e, he, hends⟩ := hs.gone h a d hrx hg
    cases e with
    | drop k =>
      obtain rfl : k = h := hends
      exact he
    | tx k a' b o =>
      obtain rfl : k = h := hends
      have hok := hs.process_of_tx hrx he
      rw [herr] at hok
      cases hok
    | bound | fatal | rx | reject | rxFail | stopped => cases hends

theorem FlowInv.perFlowLaw (hs : FlowInv s) : PerFlowLaw s := by
  refine ⟨fun h a d hrx => ⟨fun herr => ⟨fun a' b o htx => ?_, hs.drop_mem_of_malformed hrx herr⟩, ?_⟩,
    fun h hno e he hends => ?_⟩
  · have hok := hs.process_of_tx hrx htx
    rw [herr] at hok
    cases hok
  · intro reply hreply pre post a' b o hsplit
    obtain ⟨⟨d', hrx', hb⟩, honly⟩ := hs.tx pre post h a' b o hsplit
    obtain ⟨rfl, rfl⟩ := hs.rx_unique hrx (hsplit ▸ List.mem_append_left _ hrx')
    refine ⟨rfl, ?_, hrx', fun a'' b' o' htx => honly _ htx rfl⟩
    exact Result.ok.inj (hb.symm.trans hreply)
  · obtain ⟨a, d, hrx⟩ := hs.exists_rx_of_ends he hends
    exact hno a d hrx

end

/-- Settles O58. -/
theorem runsKeepPerFlowLaw : Obligations.RunsKeepPerFlowLaw := by
  unfold Obligations.RunsKeepPerFlowLaw
  exact fun s hs => hs.flowInv.perFlowLaw

/-! ## What is written -/

theorem replyFlags_eq (query : U16) : replyFlags query = 0x8003#16 ∨ replyFlags query = 0x8103#16 := by
  have hmask : query &&& 0x0100#16 = 0#16 ∨ query &&& 0x0100#16 = 0x0100#16 := by
    have htwo := BitVec.and_twoPow query 8
    split_ifs at htwo
    · exact .inr htwo
    · exact .inl htwo
  rw [replyFlags]
  obtain h | h := hmask
  · exact .inl (by rw [h]; rfl)
  · exact .inr (by rw [h]; rfl)

/-- The first two bytes of an input that decodes are the id of its message. -/
theorem take_two_of_decodeMessage {b : Bytes} {m : Message} (h : decodeMessage b = .ok m) :
    b.take 2 = bytes16 m.header.id := by
  obtain ⟨-, rest, rfl⟩ := decodeMessage_sound h
  rfl

/-- Settles O59: a write is PROCESS of its datagram, so the encoding of a reply, whose first twelve bytes are known. -/
theorem everyWriteIsNameErrorReply : Obligations.EveryWriteIsNameErrorReply := by
  unfold Obligations.EveryWriteIsNameErrorReply
  intro s h a b o hs htx
  obtain ⟨d, hrx, hprocess⟩ := hs.flowInv.exists_rx_of_tx htx
  obtain ⟨q, hq, rfl⟩ := process_eq_ok_iff.1 hprocess
  rw [encodeMessage_buildReply]
  refine ⟨d, hrx, (take_two_of_decodeMessage hq).symm, ?_, rfl⟩
  change bytes16 (replyFlags q.header.flags) = _ ∨ bytes16 (replyFlags q.header.flags) = _
  obtain hflags | hflags := replyFlags_eq q.header.flags
  · exact .inl (by rw [hflags]; rfl)
  · exact .inr (by rw [hflags]; rfl)

/-! ## Fair runs -/

section
variable {s t : State} {h : Nat}

theorem TurnOf.stage_after_handle (ht : TurnOf (.handle h) s t) :
    t.handlers.get? h = none ∨ ∃ r b, t.handlers.get? h = some r ∧ r.stage = .pending b := by
  obtain ⟨agenda, stream, peers, u, -, htakes⟩ := ht
  obtain ⟨v, he, rfl⟩ := htakes.effect
  cases he with
  | command _ hi => cases hi
  | drop => exact .inl (HandlerTable.get?_remove_self _ _)
  | reply _ r b => exact .inr ⟨_, b, HandlerTable.get?_put_self _ _ _, rfl⟩

theorem TurnOf.get?_after_send {o : WriteOutcome} (ht : TurnOf (.send h o) s t) : t.handlers.get? h = none := by
  obtain ⟨agenda, stream, peers, u, -, htakes⟩ := ht
  obtain ⟨v, he, rfl⟩ := htakes.effect
  cases he with
  | command _ hi => cases hi
  | write => rw [State.mark_handlers, write_handlers, HandlerTable.get?_remove_self]

end

section
variable {state : Nat → State} {n h : Nat} {r : Handler}

theorem Fair.pending_ends (hfair : Fair state) {b : Bytes} (hg : (state n).handlers.get? h = some r)
    (hst : r.stage = .pending b) :
    ∃ m, n ≤ m ∧ ((state m).phase = .terminated ∨ (state m).handlers.get? h = none) := by
  obtain ⟨m, hm, hterm | hsend⟩ := hfair n h r hg
  · exact ⟨m, hm, .inl hterm⟩
  · rw [hst] at hsend
    obtain ⟨o, hsend⟩ := hsend
    exact ⟨m + 1, Nat.le_succ_of_le hm, .inr hsend.get?_after_send⟩

theorem Fair.ready_ends (hfair : Fair state) (hg : (state n).handlers.get? h = some r) (hst : r.stage = .ready) :
    ∃ m, n ≤ m ∧ ((state m).phase = .terminated ∨ (state m).handlers.get? h = none) := by
  obtain ⟨m, hm, hterm | hhandle⟩ := hfair n h r hg
  · exact ⟨m, hm, .inl hterm⟩
  · rw [hst] at hhandle
    have hm' : n ≤ m + 1 := Nat.le_succ_of_le hm
    obtain hgone | ⟨r', b, hg', hst'⟩ := hhandle.stage_after_handle
    · exact ⟨m + 1, hm', .inr hgone⟩
    · obtain ⟨k, hk, hend⟩ := hfair.pending_ends hg' hst'
      exact ⟨k, hm'.trans hk, hend⟩

end

/-- Settles O60: a Ready handler takes HANDLE, then it is gone or Pending; a Pending one takes SEND, then it is gone. -/
theorem fairRunsEndEveryHandler : Obligations.FairRunsEndEveryHandler := by
  unfold Obligations.FairRunsEndEveryHandler
  intro state n h r _ hfair hg
  cases hst : r.stage with
  | ready => exact hfair.ready_ends hg hst
  | pending b => exact hfair.pending_ends hg hst

end Sys2Proof.Machine
end

