-- ==== Sys2Proof/Proofs/Text.lean ====
section
/-! The text of operations (R15, R88, R89). The parts of a line between spaces have their tokens one after another, so
P4's message (95_test_vectors.md) is read once, header and question apart, for each line it stands in. -/

namespace Sys2Proof.Machine.Text

/-! ## Lines -/

/-- Tokens put before those of a part stand before those of the parts after it. -/
theorem map_eq_map_append {x y z : Option (List Token)} {ts : List Token} {tok : List Token → List Token}
    (htok : ∀ us vs, tok us ++ vs = tok (us ++ vs)) (ih : ∀ ts, x = some ts → y = z.map (ts ++ ·))
    (h : x.map tok = some ts) : y.map tok = z.map (ts ++ ·) := by
  obtain ⟨ts', hts', rfl⟩ := Option.map_eq_some_iff.1 h
  rw [ih ts' hts', Option.map_map]
  exact congrArg (Option.map · z) (funext fun us => (htok ts' us).symm)

/-- Without a comment before it, a space ends a part of a line. -/
theorem lexFrom_append_space {a b : Chars} {ts : List Token} {inQuote : Bool} {acc : Chars} (ha : ';' ∉ a)
    (h : lexFrom inQuote acc a = some ts) :
    lexFrom inQuote acc (a ++ ' ' :: b) = (lexFrom false [] b).map (ts ++ ·) := by
  fun_induction lexFrom inQuote acc a generalizing ts with
  | case1 => cases h
  | case2 inQuote acc hq =>
    obtain rfl := Option.some.inj h
    simp [lexFrom, hq]
  | case3 acc cs ih =>
    simp only [List.cons_append, lexFrom, if_true]
    exact map_eq_map_append (by simp) (fun _ => ih (List.not_mem_of_not_mem_cons ha)) h
  | case4 acc c cs hquote ih =>
    simp only [List.cons_append, lexFrom, if_true, if_neg hquote]
    exact ih (List.not_mem_of_not_mem_cons ha) h
  | case5 => simp at ha
  | case6 inQuote acc cs hq hcomment ih =>
    simp only [List.cons_append, lexFrom, if_true, if_neg hq, if_neg hcomment]
    exact map_eq_map_append (by simp) (fun _ => ih (List.not_mem_of_not_mem_cons ha)) h
  | case7 inQuote acc c cs hq hcomment hquote hspace ih =>
    simp only [List.cons_append, lexFrom, if_neg hq, if_neg hcomment, if_neg hquote, if_pos hspace]
    exact map_eq_map_append (by simp) (fun _ => ih (List.not_mem_of_not_mem_cons ha)) h
  | case8 inQuote acc c cs hq hcomment hquote hspace t hmark ih =>
    simp only [List.cons_append, lexFrom, if_neg hq, if_neg hcomment, if_neg hquote, if_neg hspace, hmark]
    exact map_eq_map_append (by simp) (fun _ => ih (List.not_mem_of_not_mem_cons ha)) h
  | case9 inQuote acc c cs hq hcomment hquote hspace hmark ih =>
    simp only [List.cons_append, lexFrom, if_neg hq, if_neg hcomment, if_neg hquote, if_neg hspace, hmark]
    exact ih (List.not_mem_of_not_mem_cons ha) h

/-- A mnemonic, a space and the operands. -/
theorem lineOf_of_lexFrom {cfg : Config} {names : List Chars} {op line : Chars} {ts : List Token} {is : List Instr}
    (hop : ';' ∉ op) (hword : lexFrom false [] op = some [.word op]) (hts : lexFrom false [] line = some ts)
    (hops : operationsOf cfg names op ts = some is) (hwf : is.all Instr.wf = true) :
    lineOf cfg names (op ++ ' ' :: line) = some is := by
  simpa [lineOf, lexFrom_append_space hop hword, hts, hops] using hwf

/-- A text of one line is the records of its operations. -/
theorem assemble_line {cfg : Config} {names : List Chars} {line : Chars} {is : List Instr}
    (h : lineOf cfg names line = some is) : assemble cfg names [line] = some (is.flatMap encodeRecord) := by
  simp [assemble, linesOf, h]

/-! ## The message of P4 -/

/-- The header of P4's message as its text writes it. -/
def headerText : Chars :=
  "header ".toList ++ Char.ofNat 123 :: "id:0x0102, flags:0x0100, qdcount:1".toList ++ [Char.ofNat 125]

/-- The question of P4's message as its text writes it. -/
def questionText : Chars :=
  "question ".toList ++ Char.ofNat 123 :: "labels:[\"ab\"], qtype:1, qclass:1".toList ++ [Char.ofNat 125]

def headerTokens : List Token :=
  [.word "header".toList, .lbrace, .word "id".toList, .colon, .word "0x0102".toList, .comma, .word "flags".toList,
    .colon, .word "0x0100".toList, .comma, .word "qdcount".toList, .colon, .word "1".toList, .rbrace]

def questionTokens : List Token :=
  [.word "question".toList, .lbrace, .word "labels".toList, .colon, .lbracket, .quoted "ab".toList, .rbracket, .comma,
    .word "qtype".toList, .colon, .word "1".toList, .comma, .word "qclass".toList, .colon, .word "1".toList, .rbrace]

/-- The message of P4. -/
def message : Message where
  header := { id := 0x0102, flags := 0x0100, qdcount := 1, ancount := 0, nscount := 0, arcount := 0 }
  questions := [{ labels := [Label.ofBytes [0x61, 0x62]], qtype := 1, qclass := 1 }]

/-- The datagram of P4. -/
def query : Bytes :=
  [0x01, 0x02, 0x01, 0x00, 0x00, 0x01, 0x00, 0x00, 0x00, 0x00, 0x00, 0x00, 0x02, 0x61, 0x62, 0x00, 0x00, 0x01, 0x00,
    0x01]

/-- P4's message as its text writes it. -/
def messageText : Chars :=
  headerText ++ ' ' :: questionText

/-- P4's datagram as its text writes it. -/
def queryText : Chars :=
  "01 02 01 00 00 01 00 00 00 00 00 00 02 61 62 00 00 01 00 01".toList

def queryTokens : List Token :=
  ["01", "02", "01", "00", "00", "01", "00", "00", "00", "00", "00", "00", "02", "61", "62", "00", "00", "01", "00",
    "01"].map fun w => .word w.toList

theorem lexFrom_messageText : lexFrom false [] messageText = some (headerTokens ++ questionTokens) := by
  have hheader : lexFrom false [] headerText = some headerTokens := by decide
  have hquestion : lexFrom false [] questionText = some questionTokens := by decide
  rw [messageText, lexFrom_append_space (by decide) hheader, hquestion, Option.map_some]

theorem lexFrom_queryText : lexFrom false [] queryText = some queryTokens := by
  decide

/-! ## The lines of P4, and its pseudo-operations -/

theorem lineOf_encode :
    lineOf Config.thisHardware [] ("ENCODE".toList ++ ' ' :: messageText) = some [.encode message] :=
  lineOf_of_lexFrom (by decide) (by decide) lexFrom_messageText (by decide) (by decide)

theorem lineOf_buildReply :
    lineOf Config.thisHardware [] ("BUILD_REPLY".toList ++ ' ' :: messageText) = some [.buildReply message] :=
  lineOf_of_lexFrom (by decide) (by decide) lexFrom_messageText (by decide) (by decide)

theorem lineOf_roundTrip : lineOf Config.thisHardware [] ("ROUNDTRIP".toList ++ ' ' :: messageText) =
    some [.encode message, .decode query] :=
  lineOf_of_lexFrom (by decide) (by decide) lexFrom_messageText (by decide) (by decide)

theorem lineOf_decode : lineOf Config.thisHardware [] ("DECODE".toList ++ ' ' :: queryText) = some [.decode query] :=
  lineOf_of_lexFrom (by decide) (by decide) lexFrom_queryText (by decide) (by decide)

theorem lineOf_process : lineOf Config.thisHardware [] ("PROCESS".toList ++ ' ' :: queryText) =
    some [.decode query, .buildReply message, .encode (buildReply Config.thisHardware message)] :=
  lineOf_of_lexFrom (by decide) (by decide) lexFrom_queryText (by decide) (by decide)

/-- Settles O4: the short lines are evaluated; for those of P4's message the operations are known, and the text is their
records. -/
theorem programTextAssembles : Obligations.ProgramTextAssembles := by
  unfold Obligations.ProgramTextAssembles
  intro assemble message operand query decode
  refine ⟨by decide, by decide, by decide, by decide, ?_, ?_, ?_, ?_, ?_⟩
  · exact assemble_line lineOf_encode
  · exact assemble_line lineOf_decode
  · exact assemble_line lineOf_buildReply
  · exact assemble_line lineOf_roundTrip
  · exact assemble_line lineOf_process

end Sys2Proof.Machine.Text
end
